-- ==== Sys2Proof/Word.lean ====
section
/-! DEFINITION. The machine's words, bytes and register indices, and the integer notation of spec/00_scope.md
rule R6. -/

namespace Sys2Proof

/-- A 32-bit word: a register's bit pattern, an instruction word, a data address (00_scope R4: XLEN, ILEN, ADDR_W). -/
abbrev Word := BitVec 32

/-- One byte of data memory (10_state R23). -/
abbrev Byte := BitVec 8

/-- The index of a general register; every value 0 to 31 names one (10_state R11). -/
abbrev Reg := Fin 32

/-- `trunc_n(v)` of R6: `v` modulo `2^n`. -/
def trunc (n : Nat) (v : Int) : Int := v % 2 ^ n

/-- `signed_n(u)` of R6: the two's-complement reading of a number of `n` bits. -/
def signed (n : Nat) (u : Int) : Int := if u < 2 ^ (n - 1) then u else u - 2 ^ n

/-- `wrap32(v)` of R6: "value is reduced mod 2^32 and reinterpreted as signed". -/
def wrap32 (v : Int) : Int := signed 32 (trunc 32 v)

end Sys2Proof
end

