-- ==== Sys2Proof/Config.lean ====
section
/-! DEFINITION. What an implementation of the engine fixes (the opcode values, the treatment of padding bits), as
plain data, and the values the spec leaves open, as constants without a body. -/

namespace Sys2Proof

/-- The twelve mnemonics (30_encoding R59), the keys of the opcode table. -/
inductive Mnemonic where
  | nop | add | sub | and | orri | lsl | asr | b | beq | blt | ldr | str
deriving DecidableEq, Repr

/-- The twelve in the order of the spec's table. -/
def Mnemonic.all : List Mnemonic :=
  [.nop, .add, .sub, .and, .orri, .lsl, .asr, .b, .beq, .blt, .ldr, .str]

/-- `OPCODE_MAP` (30_encoding R59, decision D1; log 1): a 6-bit value for each mnemonic. OPEN in the spec. -/
structure OpcodeMap where
  nop  : BitVec 6
  add  : BitVec 6
  sub  : BitVec 6
  and  : BitVec 6
  orri : BitVec 6
  lsl  : BitVec 6
  asr  : BitVec 6
  b    : BitVec 6
  beq  : BitVec 6
  blt  : BitVec 6
  ldr  : BitVec 6
  str  : BitVec 6
deriving DecidableEq, Repr

/-- The opcode value of a mnemonic. -/
def OpcodeMap.code (m : OpcodeMap) : Mnemonic → BitVec 6
  | .nop => m.nop
  | .add => m.add
  | .sub => m.sub
  | .and => m.and
  | .orri => m.orri
  | .lsl => m.lsl
  | .asr => m.asr
  | .b => m.b
  | .beq => m.beq
  | .blt => m.blt
  | .ldr => m.ldr
  | .str => m.str

/-- The one thing the spec requires of `OPCODE_MAP`: it is injective (R59). -/
def OpcodeMap.Injective (m : OpcodeMap) : Prop := ∀ j k : Mnemonic, m.code j = m.code k → j = k

/-- `PAD_POLICY` (30_encoding R66, decision D5; log 5). -/
inductive PadPolicy where
  /-- A word with a padding bit set decodes as invalid. The spec's chosen value. -/
  | invalid
  /-- Padding bits are don't-care. The spec's named alternative. -/
  | ignore
deriving DecidableEq, Repr

/-- The parameters an implementation fixes and decoding depends on (00_scope R4). -/
structure Params where
  opcodes : OpcodeMap
  pad     : PadPolicy
deriving DecidableEq, Repr

/-- The two instructions that shift (42_alu_immediate R102), the `op` argument of `SHIFT_NEG`. -/
inductive ShiftOp where
  | lsl | asr
deriving DecidableEq, Repr

/-- `V_SUB(a, b, r)` (41_alu R93, decision D6; log 6). A FREE VALUE: the spec gives no formula, and nothing can be
proved of it but that it depends on its arguments alone. -/
opaque Config.vSub : Word → Word → Word → Bool

/-- `V_ASR(a, sh, r)` (41_alu R93, decision D7; log 6). A FREE VALUE. -/
opaque Config.vAsr : Word → Int → Word → Bool

/-- `SHIFT_NEG(op, a, sh)` (42_alu_immediate R102, decision D9; log 8): the result of a shift by a negative amount.
A FREE VALUE that "depends on `op`, `a` and `sh` only". -/
opaque Config.shiftNeg : ShiftOp → Word → Int → Word

end Sys2Proof
end

