-- ==== Sys2Proof/Syntax.lean ====
section
/-! DEFINITION. The twelve instructions as decoded, one constructor per row of spec/opcode_table.json. Operands are
the values the decoder reads (30_encoding R60 to R62): register indices, a signed immediate, a signed offset. -/

namespace Sys2Proof

/-- A decoded instruction. In `str`, `rd` is the register stored, a source (44_load_store R122). -/
inductive Instr where
  /-- NOP -/
  | nop
  /-- ADD Rd,Ra,Rb -/
  | add (rd ra rb : Reg)
  /-- SUB Rd,Ra,Rb -/
  | sub (rd ra rb : Reg)
  /-- AND Rd,Ra,Rb -/
  | and (rd ra rb : Reg)
  /-- ORRI Rd,Ra,#imm -/
  | orri (rd ra : Reg) (imm : Int)
  /-- LSL Rd,Ra,#imm -/
  | lsl (rd ra : Reg) (imm : Int)
  /-- ASR Rd,Ra,#imm -/
  | asr (rd ra : Reg) (imm : Int)
  /-- B offset -/
  | b (offset : Int)
  /-- B.EQ offset -/
  | beq (offset : Int)
  /-- B.LT offset -/
  | blt (offset : Int)
  /-- LDR Rd,[Ra,Rb] -/
  | ldr (rd ra rb : Reg)
  /-- STR Rd,[Ra,Rb] -/
  | str (rd ra rb : Reg)
deriving DecidableEq, Repr

end Sys2Proof
end

