-- ==== Sys2Proof/WellFormed.lean ====
section
/-! DEFINITION. Which instructions a word can hold: the operands in the range of their fields (30_encoding R61, R62;
R63 gives the same ranges). Register indices are in range by their type. -/

namespace Sys2Proof

/-- The range of a signed field of `n` bits. -/
def inSignedRange (n : Nat) (v : Int) : Bool := decide (-(2 ^ (n - 1) : Int) ≤ v) && decide (v < 2 ^ (n - 1))

/-- Each immediate is in `[-32768, 32767]` and each offset in `[-2^25, 2^25 - 1]`. -/
def Instr.wellFormed : Instr → Bool
  | .nop => true
  | .add _ _ _ => true
  | .sub _ _ _ => true
  | .and _ _ _ => true
  | .orri _ _ imm => inSignedRange 16 imm
  | .lsl _ _ imm => inSignedRange 16 imm
  | .asr _ _ imm => inSignedRange 16 imm
  | .b offset => inSignedRange 26 offset
  | .beq offset => inSignedRange 26 offset
  | .blt offset => inSignedRange 26 offset
  | .ldr _ _ _ => true
  | .str _ _ _ => true

end Sys2Proof
end

