-- ==== Sys2Proof/Decode.lean ====
section
/-! DEFINITION. The decoder (30_encoding R60 to R66), total on all words and rejecting by name, and the encoder
(R52 to R58, R63), both for any opcode map and either padding policy; then the reference instantiation of the two. -/

namespace Sys2Proof

/-! ## The reference parameters (R59's table, decision D1; R66, decision D5) -/

/-- The reference value of `OPCODE_MAP`: the mnemonics numbered in table order. DESIGN CHOICE (log 1). -/
def referenceOpcodes : OpcodeMap where
  nop  := 0
  add  := 1
  sub  := 2
  and  := 3
  orri := 4
  lsl  := 5
  asr  := 6
  b    := 7
  beq  := 8
  blt  := 9
  ldr  := 10
  str  := 11

/-- The parameters the fixed names run with: the reference opcodes and strict padding. DESIGN CHOICE (logs 1, 5). -/
def referenceParams : Params where
  opcodes := referenceOpcodes
  pad     := .invalid

/-! ## Formats (R53) -/

/-- The five formats of R53, one per operand form. -/
inductive Format where
  | none | r3 | ri | off | mem
deriving DecidableEq, Repr

/-- The format column of R59's table. -/
def Mnemonic.format : Mnemonic → Format
  | .nop => .none
  | .add => .r3
  | .sub => .r3
  | .and => .r3
  | .orri => .ri
  | .lsl => .ri
  | .asr => .ri
  | .b => .off
  | .beq => .off
  | .blt => .off
  | .ldr => .mem
  | .str => .mem

/-- The mnemonic of an instruction. -/
def Instr.mnemonic : Instr → Mnemonic
  | .nop => .nop
  | .add _ _ _ => .add
  | .sub _ _ _ => .sub
  | .and _ _ _ => .and
  | .orri _ _ _ => .orri
  | .lsl _ _ _ => .lsl
  | .asr _ _ _ => .asr
  | .b _ => .b
  | .beq _ => .beq
  | .blt _ => .blt
  | .ldr _ _ _ => .ldr
  | .str _ _ _ => .str

/-! ## Fields of a word (R54 to R62) -/

/-- `w[31:26]` (R59). -/
def opcodeField (w : Word) : BitVec 6 := w.extractLsb' 26 6

/-- `Rd = zext_5(w[25:21])` (R60). -/
def rdField (w : Word) : Reg := (w.extractLsb' 21 5).toFin

/-- `Ra = zext_5(w[20:16])` (R60). -/
def raField (w : Word) : Reg := (w.extractLsb' 16 5).toFin

/-- `Rb = zext_5(w[15:11])` (R60). -/
def rbField (w : Word) : Reg := (w.extractLsb' 11 5).toFin

/-- `imm = sext_16(w[15:0])` (R61). -/
def immField (w : Word) : Int := (w.extractLsb' 0 16).toInt

/-- `offset = sext_26(w[25:0])` (R62). -/
def offField (w : Word) : Int := (w.extractLsb' 0 26).toInt

/-- The padding bits of a word of a format, as a number (R53 to R58, R66); 0 where the format has none. -/
def padField (f : Format) (w : Word) : Nat :=
  match f with
  | .none => (w.extractLsb' 0 26).toNat
  | .r3 => (w.extractLsb' 0 11).toNat
  | .ri => 0
  | .off => 0
  | .mem => (w.extractLsb' 0 11).toNat

/-! ## The decoder (R64 to R66) -/

/-- Why a word is `invalid` (R64). -/
inductive Reject where
  /-- No mnemonic has this opcode (R65). -/
  | unassignedOpcode (opcode : BitVec 6)
  /-- A padding bit is set under `PAD_POLICY = invalid` (R66). -/
  | nonZeroPadding (mnemonic : Mnemonic)
deriving DecidableEq, Repr

/-- The mnemonic with an opcode value, if there is one. -/
def OpcodeMap.mnemonicOf (m : OpcodeMap) (opcode : BitVec 6) : Option Mnemonic :=
  Mnemonic.all.find? (fun k => m.code k == opcode)

/-- The operands of a word read by its mnemonic's format (R64). -/
def operandsOf (k : Mnemonic) (w : Word) : Instr :=
  match k with
  | .nop => .nop
  | .add => .add (rdField w) (raField w) (rbField w)
  | .sub => .sub (rdField w) (raField w) (rbField w)
  | .and => .and (rdField w) (raField w) (rbField w)
  | .orri => .orri (rdField w) (raField w) (immField w)
  | .lsl => .lsl (rdField w) (raField w) (immField w)
  | .asr => .asr (rdField w) (raField w) (immField w)
  | .b => .b (offField w)
  | .beq => .beq (offField w)
  | .blt => .blt (offField w)
  | .ldr => .ldr (rdField w) (raField w) (rbField w)
  | .str => .str (rdField w) (raField w) (rbField w)

/-- Whether the padding policy turns a word of this mnemonic down. -/
def padRejects (p : PadPolicy) (k : Mnemonic) (w : Word) : Bool :=
  match p with
  | .invalid => padField k.format w != 0
  | .ignore => false

/-- `decode(w)` of R64, for any parameters. -/
def decodeWith (P : Params) (w : Word) : Except Reject Instr :=
  match P.opcodes.mnemonicOf (opcodeField w) with
  | none => .error (.unassignedOpcode (opcodeField w))
  | some k => if padRejects P.pad k w then .error (.nonZeroPadding k) else .ok (operandsOf k w)

/-- The decoder of the fixed names: the reference parameters. -/
def decode (w : Word) : Except Reject Instr := decodeWith referenceParams w

/-- The instruction the decoder reads from the `nbits` bits `w` of a row of spec/opcode_table.json. Every instruction
is one 32-bit word (R50) and IMEM holds whole words (20_memory R33), so no byte order enters. -/
def decodeTableWord (_nbits w : Nat) : Option Instr :=
  if w < 2 ^ 32 then
    match decode (BitVec.ofNat 32 w) with
    | .ok i => some i
    | .error _ => none
  else none

/-! ## The encoder (R52): opcode, operand fields truncated to their width (R63), zero padding -/

/-- Format NONE (R57). -/
def packNone (op : BitVec 6) : Word := op ++ (0 : BitVec 26)

/-- Formats R3 and MEM (R54, R58). -/
def packR3 (op : BitVec 6) (rd ra rb : Int) : Word :=
  op ++ BitVec.ofInt 5 rd ++ BitVec.ofInt 5 ra ++ BitVec.ofInt 5 rb ++ (0 : BitVec 11)

/-- Format RI (R55). -/
def packRI (op : BitVec 6) (rd ra imm : Int) : Word :=
  op ++ BitVec.ofInt 5 rd ++ BitVec.ofInt 5 ra ++ BitVec.ofInt 16 imm

/-- Format OFF (R56). -/
def packOff (op : BitVec 6) (offset : Int) : Word := op ++ BitVec.ofInt 26 offset

/-- The operand values of an instruction in text order (R52). -/
def Instr.operands : Instr → List Int
  | .nop => []
  | .add rd ra rb => [rd.val, ra.val, rb.val]
  | .sub rd ra rb => [rd.val, ra.val, rb.val]
  | .and rd ra rb => [rd.val, ra.val, rb.val]
  | .orri rd ra imm => [rd.val, ra.val, imm]
  | .lsl rd ra imm => [rd.val, ra.val, imm]
  | .asr rd ra imm => [rd.val, ra.val, imm]
  | .b offset => [offset]
  | .beq offset => [offset]
  | .blt offset => [offset]
  | .ldr rd ra rb => [rd.val, ra.val, rb.val]
  | .str rd ra rb => [rd.val, ra.val, rb.val]

/-- The encoder on a mnemonic and any integer operands (R52, R63): `none` only where the number of operands is not the
format's; no operand is rejected for its size. -/
def encodeOperands (m : OpcodeMap) (k : Mnemonic) (vs : List Int) : Option Word :=
  match k.format, vs with
  | .none, [] => some (packNone (m.code k))
  | .r3, [rd, ra, rb] => some (packR3 (m.code k) rd ra rb)
  | .ri, [rd, ra, imm] => some (packRI (m.code k) rd ra imm)
  | .off, [offset] => some (packOff (m.code k) offset)
  | .mem, [rd, ra, rb] => some (packR3 (m.code k) rd ra rb)
  | _, _ => none

/-- The word of an instruction (R52), for any opcode map. -/
def encodeWith (m : OpcodeMap) (i : Instr) : Word :=
  match i with
  | .nop => packNone (m.code .nop)
  | .add rd ra rb => packR3 (m.code .add) rd.val ra.val rb.val
  | .sub rd ra rb => packR3 (m.code .sub) rd.val ra.val rb.val
  | .and rd ra rb => packR3 (m.code .and) rd.val ra.val rb.val
  | .orri rd ra imm => packRI (m.code .orri) rd.val ra.val imm
  | .lsl rd ra imm => packRI (m.code .lsl) rd.val ra.val imm
  | .asr rd ra imm => packRI (m.code .asr) rd.val ra.val imm
  | .b offset => packOff (m.code .b) offset
  | .beq offset => packOff (m.code .beq) offset
  | .blt offset => packOff (m.code .blt) offset
  | .ldr rd ra rb => packR3 (m.code .ldr) rd.val ra.val rb.val
  | .str rd ra rb => packR3 (m.code .str) rd.val ra.val rb.val

/-- The encoder of the fixed names: the reference opcodes. -/
def encode (i : Instr) : Word := encodeWith referenceOpcodes i

end Sys2Proof
end

