-- ==== Sys2Proof/Machine/State.lean ====
section
/-! DEFINITION. The complete architectural state (10_state R10), the reasons a step can stop, and the state after
reset (10_state R27). -/

namespace Sys2Proof.Machine

/-- The four condition flags, "four independent 1-bit condition flags" (10_state R17). -/
structure Flags where
  n : Bool
  z : Bool
  c : Bool
  v : Bool
deriving DecidableEq, Repr

/-- Data memory: the cells that hold something other than what an unlisted address reads as, addresses strictly
rising (10_state R23). -/
abbrev Memory := List Host.Cell

/-- "Machine State" (10_state R10): registers, flags, data memory, program counter, instruction memory, and the ghost
set of written data addresses (R24). -/
structure State where
  /-- `x[0]` to `x[31]`: the 32-bit patterns of the signed register values (R11). -/
  regs    : Vector Word 32
  /-- N, Z, C, V (R17). -/
  flags   : Flags
  /-- The index of the instruction to run, an integer of no width (R14). -/
  pc      : Int
  /-- `DMEM` (R23). -/
  mem     : Memory
  /-- `WRITTEN` (R24): the data addresses stored to, strictly rising. -/
  written : List Nat
  /-- `IMEM[0 … IMEM_LEN-1]` (R22): the loaded program, never written by the engine. -/
  imem    : List Word
deriving DecidableEq, Repr

/-- The faults. The hardware raises no exception (60_exceptions R130); this is the one stop beside halting. -/
inductive Fault where
  /-- The INVALID stop of 40_engine_nop R86: raised by the cycle (no instruction raises it) when the word at `pc` does
  not decode. SAFE: the engine "stops at that pc without executing anything and without changing any state". -/
  | invalidStop (pc : Int) (word : Word)
deriving DecidableEq, Repr

/-- The refusals. -/
inductive Refusal where
  /-- Raised by an arm of `exec` whose instruction has no meaning yet; no arm does. SAFE: the run stops. -/
  | notModelled (mnemonic : String)
deriving DecidableEq, Repr

/-- The state right after reset (10_state R27, 70_reset R145), with no program loaded: `IMEM_LEN = 0`. The zeros of N
and Z are the spec's decision D13 (log 12); the empty IMEM is log 18. -/
def State.reset : State where
  regs    := Vector.replicate 32 0
  flags   := { n := false, z := false, c := false, v := false }
  pc      := 0
  mem     := []
  written := []
  imem    := []

end Sys2Proof.Machine
end

