-- ==== Sys2Proof/Machine/Ops.lean ====
section
/-! DEFINITION. The named operations on registers, data memory, the pc and the instruction memory. The hardware takes
no exception and returns from none (60_exceptions R130, R134, R135), so there is no operation for either. -/

namespace Sys2Proof.Machine

/-- The 32-bit pattern of `wrap32(v)` (00_scope R6, 41_alu R90). -/
def narrow (v : Int) : Word := BitVec.ofInt 32 v

/-! ## Registers (10_state R12, R13: none is hard-wired) -/

/-- `read_register(i)`, the pattern; `x[i]` is its `toInt`. -/
def State.reg (s : State) (i : Reg) : Word := s.regs[i]

/-- `write_register(i, value)`. -/
def State.setReg (s : State) (i : Reg) (v : Word) : State := { s with regs := s.regs.set i v }

/-! ## The program counter (10_state R15, 40_engine_nop R82) -/

/-- `pc <- pc + 1 + delta`. -/
def State.advance (s : State) (delta : Int) : State := { s with pc := s.pc + 1 + delta }

/-! ## Data memory, one byte at a time (10_state R23) -/

/-- What an address that holds nothing reads as: "an address never written reads as zero". -/
def Memory.unlisted : Byte := 0

/-- The byte at an address. -/
def Memory.read : Memory → Nat → Byte
  | [], _ => Memory.unlisted
  | (k, v) :: rest, a => if a = k then v else Memory.read rest a

/-- The memory without the cell of an address. -/
def Memory.without (m : Memory) (a : Nat) : Memory := m.filter (fun cell => decide (cell.1 ≠ a))

/-- The memory with a cell put before the first one at a higher address. -/
def Memory.place : Memory → Nat → Byte → Memory
  | [], a, b => [(a, b)]
  | (k, v) :: rest, a, b => if a < k then (a, b) :: (k, v) :: rest else (k, v) :: Memory.place rest a b

/-- The memory after a byte is stored at an address: what an unlisted address reads as is not listed. -/
def Memory.write (m : Memory) (a : Nat) (b : Byte) : Memory :=
  if b = Memory.unlisted then m.without a else (m.without a).place a b

/-- The canonical form: addresses in the data space and strictly rising, no cell equal to what an unlisted address
reads as. -/
def Memory.wf (m : Memory) : Bool :=
  decide ((m.map Prod.fst).Pairwise (· < ·)) &&
    m.all (fun cell => decide (cell.1 < 2 ^ 32) && decide (cell.2 ≠ Memory.unlisted))

/-! ## The ghost set of written addresses (10_state R24) -/

/-- Add an address to a strictly rising list. -/
def insertAddr : List Nat → Nat → List Nat
  | [], a => [a]
  | k :: rest, a => if a < k then a :: k :: rest else if a = k then k :: rest else k :: insertAddr rest a

/-- The canonical form: addresses in the data space, strictly rising. -/
def writtenWf (l : List Nat) : Bool := decide (l.Pairwise (· < ·)) && l.all (fun a => decide (a < 2 ^ 32))

/-! ## Word accesses (20_memory R31, R32, R35, R36) -/

/-- `trunc_32(EA + i)`, as the number that keys a cell (R31, decision D11; log 10). -/
def byteAddr (ea : Word) (i : Nat) : Nat := (ea + BitVec.ofNat 32 i).toNat

/-- The byte of data memory at an address. -/
def State.byte (s : State) (a : Nat) : Byte := s.mem.read a

/-- Store one byte and note its address in `WRITTEN`. -/
def State.storeByte (s : State) (a : Nat) (b : Byte) : State :=
  { s with mem := s.mem.write a b, written := insertAddr s.written a }

/-- `MemRead(EA, 4)` (R35): the most significant byte at the lowest address. -/
def State.memRead (s : State) (ea : Word) : Word :=
  s.byte (byteAddr ea 0) ++ s.byte (byteAddr ea 1) ++ s.byte (byteAddr ea 2) ++ s.byte (byteAddr ea 3)

/-- `MemWrite(EA, 4, v)` (R36), with the ghost update of 44_load_store R122. -/
def State.memWrite (s : State) (ea : Word) (v : Word) : State :=
  (((s.storeByte (byteAddr ea 0) (v.extractLsb' 24 8)).storeByte (byteAddr ea 1) (v.extractLsb' 16 8)).storeByte
    (byteAddr ea 2) (v.extractLsb' 8 8)).storeByte (byteAddr ea 3) (v.extractLsb' 0 8)

/-! ## Instruction fetch (00_scope R8(a), 20_memory R33) -/

/-- `IMEM[pc]` when `0 <= pc < IMEM_LEN`, nothing when the pc is out of bounds. -/
def State.fetch (s : State) : Option Word := if 0 ≤ s.pc then s.imem[s.pc.toNat]? else none

/-- The instruction memory with `w` at index `k`; slots missing below `k` are filled with zero words. -/
def imemWith (imem : List Word) (k : Nat) (w : Word) : List Word :=
  imem.take k ++ List.replicate (k - imem.length) 0 ++ w :: imem.drop (k + 1)

/-! ## The host's actions before and after a run (70_reset R145, R147, R152) -/

/-- Reset with a program in `IMEM` (R147; log 18). -/
def State.loaded (program : List Word) : State := { State.reset with imem := program }

/-- The reset event (R145): every piece of state at its reset value; "`IMEM` and `IMEM_LEN` are whatever program was
loaded". -/
def State.resetEvent (s : State) : State := State.loaded s.imem

/-- The read-out of registers (R152): index and pattern of each register that does not hold zero. -/
def State.dumpRegs (s : State) : List (Reg × Word) :=
  ((List.finRange 32).map (fun i => (i, s.reg i))).filter (fun p => decide (p.2 ≠ 0))

/-- The read-out of memory (R152, 10_state R24): each written address with its byte, zero bytes included. -/
def State.dumpMem (s : State) : List Host.Cell := s.written.map (fun a => (a, s.byte a))

end Sys2Proof.Machine
end

