-- ==== Sys2Proof/Machine/Operands.lean ====
section
/-! DEFINITION. The operand forms of the formats: register values, the immediate as a pattern and as a shift amount,
the effective address, the branch displacement. -/

namespace Sys2Proof.Machine

/-- A signed immediate as a 32-bit pattern (42_alu_immediate R101: "its upper 16 bits are copies of w[15]"). -/
def immWord (imm : Int) : Word := narrow imm

/-- The effective address of LDR and STR, `trunc_32(x[Ra] + x[Rb])` (44_load_store R120; decision D11, log 10). -/
def State.ea (s : State) (ra rb : Reg) : Word := narrow ((s.reg ra).toInt + (s.reg rb).toInt)

/-- The displacement of a branch on top of the engine's increment (40_engine_nop R82): the offset if it is taken. -/
def branchDelta (taken : Bool) (offset : Int) : Int := if taken then offset else 0

/-- The result of LSL (42_alu_immediate R102, R103): `wrap32(a * 2^sh)`, and for a negative amount the free value. -/
def lslResult (a : Word) (sh : Int) : Word :=
  if 0 ≤ sh then narrow (a.toInt * ((2 ^ sh.toNat : Nat) : Int)) else Config.shiftNeg .lsl a sh

/-- The result of ASR (42_alu_immediate R102, R104): `floor(a / 2^sh)`, and for a negative amount the free value. -/
def asrResult (a : Word) (sh : Int) : Word :=
  if 0 ≤ sh then narrow (Int.fdiv a.toInt ((2 ^ sh.toNat : Nat) : Int)) else Config.shiftNeg .asr a sh

end Sys2Proof.Machine
end

