-- ==== Sys2Proof/Machine/Flags.lean ====
section
/-! DEFINITION. The flag computations of the ALU (41_alu R91 to R94) and the one way an ALU instruction ends. -/

namespace Sys2Proof.Machine

/-- N of a result: `r < 0` (R91). -/
def negative (r : Word) : Bool := decide (r.toInt < 0)

/-- Z of a result: `r == 0` (R91). -/
def zero (r : Word) : Bool := decide (r.toInt = 0)

/-- `V_ADD` (R92, reading A of decision D8; log 7). It misses the overflow of two negative operands, as R92 says. -/
def vAdd (a b r : Word) : Bool := decide (0 ≤ a.toInt) && decide (0 ≤ b.toInt) && decide (r.toInt < a.toInt)

/-- `update_flags(result, which_flags)` (R91, R94): N and Z from the result, V only where the instruction declares it,
C never. -/
def Flags.update (f : Flags) (r : Word) (v : Option Bool) : Flags :=
  { f with n := negative r, z := zero r, v := v.getD f.v }

/-- The end of an ALU instruction (R90): the same `r` goes to `Rd` and to the flags, and the pc advances by one. -/
def State.aluEnd (s : State) (rd : Reg) (r : Word) (v : Option Bool) : State :=
  ({ s.setReg rd r with flags := s.flags.update r v }).advance 0

end Sys2Proof.Machine
end

