-- ==== Sys2Proof/Machine/AluImmediate.lean ====
section
/-! DEFINITION. ORRI, LSL, ASR (42_alu_immediate R101 to R104). -/

namespace Sys2Proof.Machine

/-- ORRI (R101): bit by bit with the sign-extended immediate; N and Z, V kept. -/
def execOrri (rd ra : Reg) (imm : Int) (s : State) : Host.Outcome State Fault Refusal :=
  let a := s.reg ra
  .next (s.aluEnd rd (a ||| immWord imm) none)

/-- LSL (R103): N and Z, V and C kept. -/
def execLsl (rd ra : Reg) (sh : Int) (s : State) : Host.Outcome State Fault Refusal :=
  let a := s.reg ra
  .next (s.aluEnd rd (lslResult a sh) none)

/-- ASR (R104): N, Z, and V by the open `V_ASR`. -/
def execAsr (rd ra : Reg) (sh : Int) (s : State) : Host.Outcome State Fault Refusal :=
  let a := s.reg ra
  let r := asrResult a sh
  .next (s.aluEnd rd r (some (Config.vAsr a sh r)))

end Sys2Proof.Machine
end

