-- ==== Sys2Proof/Machine/AluRegister.lean ====
section
/-! DEFINITION. ADD, SUB, AND (41_alu_register R95 to R97). -/

namespace Sys2Proof.Machine

/-- ADD (R95): `r = wrap32(a + b)`; N, Z, and V by `V_ADD`. -/
def execAdd (rd ra rb : Reg) (s : State) : Host.Outcome State Fault Refusal :=
  let a := s.reg ra
  let b := s.reg rb
  let r := narrow (a.toInt + b.toInt)
  .next (s.aluEnd rd r (some (vAdd a b r)))

/-- SUB (R96): `r = wrap32(a - b)`; N, Z, and V by the open `V_SUB`. -/
def execSub (rd ra rb : Reg) (s : State) : Host.Outcome State Fault Refusal :=
  let a := s.reg ra
  let b := s.reg rb
  let r := narrow (a.toInt - b.toInt)
  .next (s.aluEnd rd r (some (Config.vSub a b r)))

/-- AND (R97): bit by bit; N and Z, V kept. -/
def execAnd (rd ra rb : Reg) (s : State) : Host.Outcome State Fault Refusal :=
  let a := s.reg ra
  let b := s.reg rb
  .next (s.aluEnd rd (a &&& b) none)

end Sys2Proof.Machine
end

