-- ==== Sys2Proof/Machine/Branch.lean ====
section
/-! DEFINITION. B, B.EQ, B.LT (43_branch R110 to R115). The target is relative to the instruction after the branch, and
a target outside the program is legal: the engine is then HALTED. -/

namespace Sys2Proof.Machine

/-- B (R111): always taken. -/
def execB (offset : Int) (s : State) : Host.Outcome State Fault Refusal :=
  .next (s.advance (branchDelta true offset))

/-- B.EQ (R112): taken if Z = 1. -/
def execBEq (offset : Int) (s : State) : Host.Outcome State Fault Refusal :=
  .next (s.advance (branchDelta s.flags.z offset))

/-- B.LT (R113): taken if N differs from V. -/
def execBLt (offset : Int) (s : State) : Host.Outcome State Fault Refusal :=
  .next (s.advance (branchDelta (s.flags.n != s.flags.v) offset))

end Sys2Proof.Machine
end

