-- ==== Sys2Proof/Machine/EngineNop.lean ====
section
/-! DEFINITION. NOP (40_engine_nop R87). -/

namespace Sys2Proof.Machine

/-- NOP: "no state change" but the engine's increment of the pc (R87). -/
def execNop (s : State) : Host.Outcome State Fault Refusal := .next (s.advance 0)

end Sys2Proof.Machine
end

