-- ==== Sys2Proof/Machine/LoadStore.lean ====
section
/-! DEFINITION. LDR, STR (44_load_store R121, R122). -/

namespace Sys2Proof.Machine

/-- LDR (R121): the word at the effective address, formed from the old registers, to `Rd`; no flag. -/
def execLdr (rd ra rb : Reg) (s : State) : Host.Outcome State Fault Refusal :=
  .next ((s.setReg rd (s.memRead (s.ea ra rb))).advance 0)

/-- STR (R122): the word of `Rd`, here a source, to the effective address; no flag, no register. -/
def execStr (rd ra rb : Reg) (s : State) : Host.Outcome State Fault Refusal :=
  .next ((s.memWrite (s.ea ra rb) (s.reg rd)).advance 0)

end Sys2Proof.Machine
end

