-- ==== Sys2Proof/Machine/Dispatch.lean ====
section
/-! DEFINITION. Dispatch (40_engine_nop R85): exactly one action per mnemonic. -/

namespace Sys2Proof.Machine

/-- The action of a decoded instruction, with its advance of the pc. -/
def exec (i : Instr) (s : State) : Host.Outcome State Fault Refusal :=
  match i with
  | .nop => Sys2Proof.Machine.execNop s
  | .add rd ra rb => Sys2Proof.Machine.execAdd rd ra rb s
  | .sub rd ra rb => Sys2Proof.Machine.execSub rd ra rb s
  | .and rd ra rb => Sys2Proof.Machine.execAnd rd ra rb s
  | .orri rd ra imm => Sys2Proof.Machine.execOrri rd ra imm s
  | .lsl rd ra imm => Sys2Proof.Machine.execLsl rd ra imm s
  | .asr rd ra imm => Sys2Proof.Machine.execAsr rd ra imm s
  | .b offset => Sys2Proof.Machine.execB offset s
  | .beq offset => Sys2Proof.Machine.execBEq offset s
  | .blt offset => Sys2Proof.Machine.execBLt offset s
  | .ldr rd ra rb => Sys2Proof.Machine.execLdr rd ra rb s
  | .str rd ra rb => Sys2Proof.Machine.execStr rd ra rb s

end Sys2Proof.Machine
end

