-- ==== Sys2Proof/Machine/Cycle.lean ====
section
/-! DEFINITION. The engine's cycle (40_engine_nop R80 to R86) for any parameters, and the status it shows. -/

namespace Sys2Proof.Machine

/-- One cycle (R81), the tests in the order of 60_exceptions R133: bounds, then decoding, then execution.
HALTED changes no state (R83; log 17). -/
def cycle (P : Params) (s : State) : Host.Outcome State Fault Refusal :=
  match s.fetch with
  | none => .next s
  | some w =>
    match decodeWith P w with
    | .error _ => .fault (.invalidStop s.pc w)
    | .ok i => exec i s

/-- `k` cycles, stopping at the first fault or refusal. -/
def run (P : Params) : Nat → State → Host.Outcome State Fault Refusal
  | 0, s => .next s
  | k + 1, s =>
    match cycle P s with
    | .next u => run P k u
    | .fault f => .fault f
    | .refused r => .refused r

/-- What the engine reports (00_scope R8(d)): the two run states of R80, and the INVALID stop "reported as distinct
from a halt" (R86). -/
inductive Status where
  | running | halted | invalid
deriving DecidableEq, Repr

/-- `RUNNING <=> 0 <= pc < IMEM_LEN` (R80). -/
def State.running (s : State) : Bool := decide (0 ≤ s.pc) && decide (s.pc < s.imem.length)

/-- `HALTED <=> pc < 0 or pc >= IMEM_LEN` (R80). -/
def State.halted (s : State) : Bool := decide (s.pc < 0) || decide ((s.imem.length : Int) ≤ s.pc)

/-- The status is no stored bit: a function of the pc, the program length and the word at the pc (R80, R86). -/
def State.status (P : Params) (s : State) : Status :=
  match s.fetch with
  | none => .halted
  | some w =>
    match decodeWith P w with
    | .error _ => .invalid
    | .ok _ => .running

end Sys2Proof.Machine
end

