-- ==== Sys2Proof/Machine/Step.lean ====
section
/-! DEFINITION. The step of the fixed names: the cycle under the reference parameters. -/

namespace Sys2Proof.Machine

/-- One step: one cycle (40_engine_nop R81) under the reference parameters (logs 1, 5). -/
def step (s : State) : Host.Outcome State Fault Refusal := cycle referenceParams s

/-- `s` with the word `w` in the slot of IMEM that the next step fetches (log 18). A negative pc designates no slot, so
it becomes 0; slots missing below the pc are filled with zero words. -/
def State.withFetchWord (s : State) (_nbits w : Nat) : State :=
  { s with pc := s.pc.toNat, imem := imemWith s.imem s.pc.toNat (BitVec.ofNat 32 w) }

end Sys2Proof.Machine
end

