-- ==== Sys2Proof/Machine/Assembler.lean ====
section
/-! DEFINITION. The assembler that fills IMEM (30_encoding R70 to R77): text to words, before any run. Text is a list of
lines, a line a list of characters. Nothing of it is machine state (R74: its errors are no machine events). Log 19. -/

namespace Sys2Proof.Asm

/-- One line of source text. -/
abbrev Line := List Char

/-- The errors of R74, and the empty line, on which the source is silent (91_not_in_source N10; log 19). -/
inductive AsmError where
  /-- "first token not in the Opcode Table" -/
  | unknownMnemonic
  /-- "operand text does not match the mnemonic's grammar" -/
  | malformedOperands
  /-- A line without a token. -/
  | emptyLine
deriving DecidableEq, Repr

/-- A parsed line: the mnemonic and its integer operands, of any size (R63, R76). -/
structure Parsed where
  mnemonic : Mnemonic
  operands : List Int
deriving DecidableEq, Repr

/-! ## Characters and tokens (R70) -/

/-- "normalize case". -/
def upper (c : Char) : Char := if 97 ≤ c.toNat ∧ c.toNat ≤ 122 then Char.ofNat (c.toNat - 32) else c

/-- White space between tokens. -/
def isBlank (c : Char) : Bool := c == ' ' || c == '\t' || c == '\r' || c == '\n'

/-- The tokens of a line; `acc` is the token being read, reversed. -/
def tokensFrom (acc : Line) : Line → List Line
  | [] => if acc = [] then [] else [acc.reverse]
  | c :: cs =>
    if isBlank c then (if acc = [] then tokensFrom [] cs else acc.reverse :: tokensFrom [] cs)
    else tokensFrom (c :: acc) cs

/-- The spelling of a mnemonic; the dotted ones with the dot (R70). -/
def spelling : Mnemonic → Line
  | .nop => ['N', 'O', 'P']
  | .add => ['A', 'D', 'D']
  | .sub => ['S', 'U', 'B']
  | .and => ['A', 'N', 'D']
  | .orri => ['O', 'R', 'R', 'I']
  | .lsl => ['L', 'S', 'L']
  | .asr => ['A', 'S', 'R']
  | .b => ['B']
  | .beq => ['B', '.', 'E', 'Q']
  | .blt => ['B', '.', 'L', 'T']
  | .ldr => ['L', 'D', 'R']
  | .str => ['S', 'T', 'R']

/-- Look a token up in the opcode table. -/
def mnemonicOfText (t : Line) : Option Mnemonic := Mnemonic.all.find? (fun k => spelling k == t)

/-! ## Numerals (R72, decision D21) and punctuation -/

/-- The value of a decimal digit. -/
def digitVal (c : Char) : Option Nat := if 48 ≤ c.toNat ∧ c.toNat ≤ 57 then some (c.toNat - 48) else none

/-- The rest of a numeral whose digits so far make `acc`, and the text after it. -/
def digitsFrom (acc : Nat) : Line → Nat × Line
  | [] => (acc, [])
  | c :: cs =>
    match digitVal c with
    | some d => digitsFrom (acc * 10 + d) cs
    | none => (acc, c :: cs)

/-- One or more decimal digits. -/
def parseNat : Line → Option (Nat × Line)
  | [] => none
  | c :: cs =>
    match digitVal c with
    | some d => some (digitsFrom d cs)
    | none => none

/-- An optional sign, then one or more decimal digits. -/
def parseInt : Line → Option (Int × Line)
  | [] => none
  | c :: cs =>
    if c = '-' then (parseNat cs).map (fun p => (-(p.1 : Int), p.2))
    else if c = '+' then (parseNat cs).map (fun p => ((p.1 : Int), p.2))
    else (parseNat (c :: cs)).map (fun p => ((p.1 : Int), p.2))

/-- One given character. -/
def expect (c : Char) : Line → Option Line
  | [] => none
  | d :: ds => if d = c then some ds else none

/-- `R<n>`, the number without a sign. -/
def parseReg (t : Line) : Option (Int × Line) :=
  (expect 'R' t).bind fun t => (parseNat t).map fun p => ((p.1 : Int), p.2)

/-- `R<n>,` -/
def parseRegComma (t : Line) : Option (Int × Line) :=
  (parseReg t).bind fun p => (expect ',' p.2).map fun t => (p.1, t)

/-- Nothing may follow the operands. -/
def atEnd {α : Type} (x : α) (t : Line) : Option α := if t = [] then some x else none

/-! ## The operand grammar (R71, R73) -/

/-- `R<n>,R<n>,R<n>` -/
def parseR3 (t : Line) : Option (List Int) :=
  (parseRegComma t).bind fun d => (parseRegComma d.2).bind fun a => (parseReg a.2).bind fun b =>
    atEnd [d.1, a.1, b.1] b.2

/-- `R<n>,R<n>,#<int>` -/
def parseRI (t : Line) : Option (List Int) :=
  (parseRegComma t).bind fun d => (parseRegComma d.2).bind fun a => (expect '#' a.2).bind fun t =>
    (parseInt t).bind fun m => atEnd [d.1, a.1, m.1] m.2

/-- `<int>` -/
def parseOff (t : Line) : Option (List Int) := (parseInt t).bind fun m => atEnd [m.1] m.2

/-- The separator of a memory operand: "`[Ra+Rb]` and `[Ra,Rb]` are equivalent" (R73). -/
def expectSeparator : Line → Option Line
  | [] => none
  | c :: cs => if c = ',' ∨ c = '+' then some cs else none

/-- `R<n>,[R<n>,R<n>]` or `R<n>,[R<n>+R<n>]` -/
def parseMem (t : Line) : Option (List Int) :=
  (parseRegComma t).bind fun d => (expect '[' d.2).bind fun t => (parseReg t).bind fun a =>
    (expectSeparator a.2).bind fun t => (parseReg t).bind fun b => (expect ']' b.2).bind fun t =>
      atEnd [d.1, a.1, b.1] t

/-- The operands of a format from its text, white space removed. -/
def parseOperands (f : Format) (t : Line) : Option (List Int) :=
  match f with
  | .none => atEnd [] t
  | .r3 => parseR3 t
  | .ri => parseRI t
  | .off => parseOff t
  | .mem => parseMem t

/-! ## Lines and programs (R70, R74, R77) -/

/-- Parse a line: "normalize case, tokenize on whitespace, treat token 0 as mnemonic, join remaining tokens … and
match against the descriptor's operand grammar" (R70). -/
def parseLine (line : Line) : Except AsmError Parsed :=
  match tokensFrom [] (line.map upper) with
  | [] => .error .emptyLine
  | t :: rest =>
    match mnemonicOfText t with
    | none => .error .unknownMnemonic
    | some k =>
      match parseOperands k.format rest.flatten with
      | none => .error .malformedOperands
      | some vs => .ok { mnemonic := k, operands := vs }

/-- The word of a line (R52, R63). -/
def assembleLine (m : OpcodeMap) (line : Line) : Except AsmError Word :=
  match parseLine line with
  | .error e => .error e
  | .ok p =>
    match encodeOperands m p.mnemonic p.operands with
    | some w => .ok w
    | none => .error .malformedOperands

/-- The words of a program, one a line, line `k` at `IMEM[k]`; "any parse failure is expected to terminate the whole
program immediately" with no partial output (R70, R74). -/
def assemble (m : OpcodeMap) : List Line → Except AsmError (List Word)
  | [] => .ok []
  | line :: rest =>
    match assembleLine m line with
    | .error e => .error e
    | .ok w =>
      match assemble m rest with
      | .error e => .error e
      | .ok ws => .ok (w :: ws)

/-- The 32 bits of a word as the source writes them: opcode first, padding last (R51, R52, R77). -/
def bitString (w : Word) : Line := (List.range 32).map (fun i => if w.getMsbD i then '1' else '0')

/-- The content of the encode-mode listing (R77): for each instruction its text, its index and its bits. The
characters around them are not in the source (91_not_in_source N11). -/
def listing (m : OpcodeMap) (lines : List Line) : Except AsmError (List (Line × Nat × Line)) :=
  match assemble m lines with
  | .error e => .error e
  | .ok ws => .ok ((lines.zip ws).zipIdx.map (fun p => (p.1.1, p.2, bitString p.1.2)))

end Sys2Proof.Asm
end

