-- ==== Sys2Proof/Safety.lean ====
section
/-! DEFINITION. What counts as a safe run, and the invariant of the machine's data. -/

namespace Sys2Proof

namespace Machine

/-- No run from `s`, however long, takes the INVALID stop (40_engine_nop R86: "a claim takes 'no INVALID stop occurred'
as a premise") or is refused. -/
def Safe (P : Params) (s : State) : Prop := ∀ k : Nat, ∃ t : State, run P k s = .next t

/-- Every word of a program decodes. -/
def ProgramDecodes (P : Params) (program : List Word) : Prop := ∀ w ∈ program, ∃ i, decodeWith P w = .ok i

/-- The state's data are in their canonical forms: data memory and `WRITTEN` are canonical lists over the `2^32` byte
addresses (10_state R23, R24), every cell that does not read zero was written ("an address never written reads as
zero"), and C is the constant 0 (R18). -/
structure State.Inv (s : State) : Prop where
  memWf     : s.mem.wf = true
  writtenWf : writtenWf s.written = true
  unwritten : ∀ a : Nat, a ∉ s.written → s.byte a = 0
  carry     : s.flags.c = false

/-- The range of the pc (10_state R16): `-2^25 + 1 <= pc <= IMEM_LEN - 1 + 2^25`. -/
def State.PcInRange (s : State) : Prop := -(2 ^ 25) + 1 ≤ s.pc ∧ s.pc ≤ s.imem.length - 1 + 2 ^ 25

end Machine

end Sys2Proof
end

