-- ==== Sys2Proof/Certificates/Slice0/Obligations.lean ====
section
/-! DEFINITION. The statements for the provers, from the numbered rules of spec/. The helpers of `Sys2Proof.Rules` say
the spec's own tables (who writes what) and the parts many rules share; results are stated on integers with the notation
of 00_scope R6, not with the machine's operations. -/

namespace Sys2Proof.Rules

open Sys2Proof.Machine

/-- Every general register is as before. -/
def RegsKept (s t : State) : Prop := ∀ k : Reg, t.reg k = s.reg k

/-- Every general register but `rd` is as before. -/
def RegsKeptBut (rd : Reg) (s t : State) : Prop := ∀ k : Reg, k ≠ rd → t.reg k = s.reg k

/-- Every byte of data memory reads as before, and `WRITTEN` and IMEM are as before. -/
def MemoryKept (s t : State) : Prop := (∀ a : Nat, t.byte a = s.byte a) ∧ t.written = s.written ∧ t.imem = s.imem

/-- N and Z from a result `r` (41_alu R91). -/
def NZFrom (r : Word) (t : State) : Prop := (t.flags.n = true ↔ r.toInt < 0) ∧ (t.flags.z = true ↔ r.toInt = 0)

/-- What all six ALU instructions share: only `Rd` changes, N and Z are those of `Rd`'s new value, C is kept, the pc
goes on by one, memory is kept. -/
def AluShape (rd : Reg) (s t : State) : Prop :=
  RegsKeptBut rd s t ∧ NZFrom (t.reg rd) t ∧ t.flags.c = s.flags.c ∧ t.pc = s.pc + 1 ∧ MemoryKept s t

/-- Formats R3 and MEM (30_encoding R54, R58): the word whose fields are these decodes to this instruction. -/
def EncodedR3 (k : Mnemonic) (i : Reg → Reg → Reg → Instr) : Prop :=
  ∀ (P : Params) (rd ra rb : Reg) (w : Word), P.opcodes.Injective →
    w.toNat = (P.opcodes.code k).toNat * 2 ^ 26 + rd.val * 2 ^ 21 + ra.val * 2 ^ 16 + rb.val * 2 ^ 11 →
    decodeWith P w = .ok (i rd ra rb)

/-- Format RI (R55), the immediate at every value of its range. -/
def EncodedRI (k : Mnemonic) (i : Reg → Reg → Int → Instr) : Prop :=
  ∀ (P : Params) (rd ra : Reg) (imm : Int) (w : Word), P.opcodes.Injective → -32768 ≤ imm → imm ≤ 32767 →
    (w.toNat : Int) = (P.opcodes.code k).toNat * 2 ^ 26 + rd.val * 2 ^ 21 + ra.val * 2 ^ 16 + trunc 16 imm →
    decodeWith P w = .ok (i rd ra imm)

/-- Format OFF (R56), the offset at every value of its range. -/
def EncodedOff (k : Mnemonic) (i : Int → Instr) : Prop :=
  ∀ (P : Params) (offset : Int) (w : Word), P.opcodes.Injective → -33554432 ≤ offset → offset ≤ 33554431 →
    (w.toNat : Int) = (P.opcodes.code k).toNat * 2 ^ 26 + trunc 26 offset →
    decodeWith P w = .ok (i offset)

/-- The displacement an instruction adds to `pc + 1` (10_state R15, 40_engine_nop R82). -/
def delta (s : State) : Instr → Int
  | .b offset => offset
  | .beq offset => if s.flags.z = true then offset else 0
  | .blt offset => if s.flags.n ≠ s.flags.v then offset else 0
  | _ => 0

/-- The offset of a branch that is taken in `s` (R82). -/
def takenOffset (s : State) : Instr → Option Int
  | .b offset => some offset
  | .beq offset => if s.flags.z = true then some offset else none
  | .blt offset => if s.flags.n ≠ s.flags.v then some offset else none
  | _ => none

/-- "Writers of `Rd`" (10_state R12). -/
def destination : Instr → Option Reg
  | .add rd _ _ | .sub rd _ _ | .and rd _ _ | .orri rd _ _ | .lsl rd _ _ | .asr rd _ _ | .ldr rd _ _ => some rd
  | _ => none

/-- "Readers of `Ra` and `Rb`", "readers of `Ra` only", "reader of `Rd`" (R12). -/
def sources : Instr → List Reg
  | .add _ ra rb | .sub _ ra rb | .and _ ra rb | .ldr _ ra rb => [ra, rb]
  | .orri _ ra _ | .lsl _ ra _ | .asr _ ra _ => [ra]
  | .str rd ra rb => [rd, ra, rb]
  | _ => []

/-- The writers of N and Z (10_state R19, 41_alu R91) with their `Rd`. -/
def writesNZ : Instr → Option Reg
  | .add rd _ _ | .sub rd _ _ | .and rd _ _ | .orri rd _ _ | .lsl rd _ _ | .asr rd _ _ => some rd
  | _ => none

/-- The writers of V (R19). -/
def writesV : Instr → Bool
  | .add _ _ _ | .sub _ _ _ | .asr _ _ _ => true
  | _ => false

/-- The address an instruction stores a word to, by the machine's own expression. -/
def storesTo (s : State) : Instr → Option Word
  | .str _ ra rb => some (s.ea ra rb)
  | _ => none

/-- The four addresses of a word access (20_memory R31). -/
def wordAddrs (ea : Word) : List Nat := [byteAddr ea 0, byteAddr ea 1, byteAddr ea 2, byteAddr ea 3]

/-- A decimal digit character. -/
def Digits (l : Asm.Line) : Prop := l ≠ [] ∧ ∀ c ∈ l, c ∈ ['0', '1', '2', '3', '4', '5', '6', '7', '8', '9']

/-- The value of a decimal numeral. -/
def decimal (l : Asm.Line) : Nat := l.foldl (fun acc c => acc * 10 + (c.toNat - '0'.toNat)) 0

/-- The text of a memory operand, `R<d>,[R<a><sep>R<b>]` (30_encoding R71, R73). -/
def memText (d a b : Asm.Line) (sep : Char) : Asm.Line :=
  'R' :: d ++ ',' :: '[' :: 'R' :: a ++ sep :: 'R' :: b ++ [']']

end Sys2Proof.Rules

open Sys2Proof Sys2Proof.Machine Sys2Proof.Rules

/-! ## Reset, the cycle, the run states -/

/-- 10_state R27, 70_reset R145: reset, and the reset event on any state. N = Z = 0 is the spec's decision D13 (log 12);
the empty IMEM of `State.reset` is log 18. -/
def Obligations.ResetValues : Prop :=
  (∀ program : List Word, ∀ s : State,
    (s = State.loaded program ∨ (∃ u : State, u.imem = program ∧ s = u.resetEvent) ∨ (program = [] ∧ s = State.reset)) →
      (∀ k : Reg, (s.reg k).toInt = 0) ∧ s.pc = 0 ∧ s.flags.n = false ∧ s.flags.z = false ∧ s.flags.c = false ∧
      s.flags.v = false ∧ (∀ a : Nat, s.byte a = 0) ∧ s.written = [] ∧ s.imem = program)

/-- 70_reset R146: the first word fetched is `IMEM[0]`, and with an empty program the engine is HALTED at once. -/
def Obligations.EntryPoint : Prop :=
  (∀ s : State, s.resetEvent.fetch = s.imem.head?) ∧ (∀ program : List Word, (State.loaded program).fetch = program.head?) ∧
  ∀ (P : Params) (s : State), s.imem = [] → s.resetEvent.halted = true ∧ ∀ k : Nat, run P k s.resetEvent = .next s.resetEvent

/-- 40_engine_nop R80: the run state is a function of the pc and the program length. -/
def Obligations.RunStateIsPcInBounds : Prop :=
  ∀ (P : Params) (s : State),
    (s.running = true ↔ 0 ≤ s.pc ∧ s.pc < s.imem.length) ∧ (s.halted = true ↔ s.pc < 0 ∨ s.imem.length ≤ s.pc) ∧
    (s.running = !s.halted) ∧ (s.fetch = none ↔ s.halted = true) ∧ (s.status P = .halted ↔ s.halted = true) ∧
    (s.running = true → s.fetch = s.imem[s.pc.toNat]?)

/-- 40_engine_nop R83: HALTED is absorbing, an engine with no program is HALTED from reset, and a running engine comes to
HALTED only past its last instruction without a taken branch, or by a taken branch above or below the program. -/
def Obligations.HaltedIsAbsorbingAndItsWays : Prop :=
  (∀ (P : Params) (s : State), s.halted = true → ∀ k : Nat, run P k s = .next s) ∧
  State.reset.halted = true ∧
  ∀ (P : Params) (s t : State), s.running = true → cycle P s = .next t →
    (t.halted = true ↔ ∃ w i, s.fetch = some w ∧ decodeWith P w = .ok i ∧
      ((takenOffset s i = none ∧ s.pc = s.imem.length - 1 ∧ t.pc = s.imem.length) ∨
        ∃ offset, takenOffset s i = some offset ∧ t.pc = s.pc + 1 + offset ∧
          (s.imem.length ≤ s.pc + 1 + offset ∨ s.pc + 1 + offset < 0)))

/-- 40_engine_nop R81 and the order of 60_exceptions R133: bounds, then decoding, then execution; for any parameters, and
for `step`, which has the reference ones (log 1). The fault is the spec's decision D4 (log 4). -/
def Obligations.StepRunsTheDecodedInstruction : Prop :=
  (∀ (P : Params) (s : State), s.fetch = none → cycle P s = .next s) ∧
  (∀ (P : Params) (s : State) (w : Word) (i : Instr), s.fetch = some w → decodeWith P w = .ok i → cycle P s = exec i s) ∧
  (∀ (P : Params) (s : State) (w : Word) (e : Reject), s.fetch = some w → decodeWith P w = .error e →
    cycle P s = .fault (.invalidStop s.pc w)) ∧
  (∀ (s : State) (w : Word) (i : Instr), s.fetch = some w → decode w = .ok i → step s = exec i s) ∧
  ∀ s : State, step s = cycle referenceParams s

/-- 40_engine_nop R86 (decision D4, log 4) and 60_exceptions R130: the INVALID stop is the only stop, it happens exactly
on a word that does not decode, it is what the status shows, and nothing is ever refused. -/
def Obligations.InvalidStopExactlyOnUndecodableWord : Prop :=
  ∀ (P : Params) (s : State),
    (∀ f : Fault, cycle P s = .fault f ↔ ∃ w e, s.fetch = some w ∧ decodeWith P w = .error e ∧ f = .invalidStop s.pc w) ∧
    (s.status P = .invalid ↔ ∃ f : Fault, cycle P s = .fault f) ∧
    (s.status P = .running ↔ s.running = true ∧ ∃ t : State, cycle P s = .next t) ∧
    ∀ r : Refusal, cycle P s ≠ .refused r

/-- 60_exceptions R130, R134: every instruction completes, in every state and on all operands. -/
def Obligations.EveryInstructionCompletes : Prop := ∀ (i : Instr) (s : State), ∃ t : State, exec i s = .next t

/-- 10_state R15, 40_engine_nop R82: the advance of the pc, and no instruction reads the pc into anything else. -/
def Obligations.PcAdvancesByOnePlusDelta : Prop :=
  ∀ (i : Instr) (s : State), ∃ t : State, exec i s = .next t ∧ t.pc = s.pc + 1 + delta s i ∧
    ∀ p : Int, exec i { s with pc := p } = .next { t with pc := p + 1 + delta s i }

/-- 40_engine_nop R89: a branch to itself runs for ever; there is no limit on the number of cycles. -/
def Obligations.SelfBranchRunsForEver : Prop :=
  ∀ (P : Params) (s : State) (w : Word), s.fetch = some w → decodeWith P w = .ok (.b (-1)) →
    s.running = true ∧ ∀ k : Nat, run P k s = .next s

/-! ## The twelve instructions: encoding, result, frame -/

/-- 40_engine_nop R87. -/
def Obligations.NopOnlyAdvances : Prop :=
  (∀ (P : Params) (w : Word), P.opcodes.Injective → w.toNat = (P.opcodes.code .nop).toNat * 2 ^ 26 → decodeWith P w = .ok .nop) ∧
  ∀ s : State, ∃ t : State, exec .nop s = .next t ∧ t.pc = s.pc + 1 ∧ RegsKept s t ∧ t.flags = s.flags ∧ MemoryKept s t

/-- 41_alu R95 with R92's `V_ADD`, which is reading A of the spec's decision D8 (log 7). -/
def Obligations.AddResultFlagsFrame : Prop :=
  EncodedR3 .add .add ∧
  ∀ (rd ra rb : Reg) (s : State), ∃ t : State, exec (.add rd ra rb) s = .next t ∧
    (t.reg rd).toInt = wrap32 ((s.reg ra).toInt + (s.reg rb).toInt) ∧
    (t.flags.v = true ↔ 0 ≤ (s.reg ra).toInt ∧ 0 ≤ (s.reg rb).toInt ∧ (t.reg rd).toInt < (s.reg ra).toInt) ∧
    AluShape rd s t

/-- 41_alu R96. V is the free value `V_SUB` of the two operands and the result (log 6): nothing is claimed of it. -/
def Obligations.SubResultFlagsFrame : Prop :=
  EncodedR3 .sub .sub ∧
  ∀ (rd ra rb : Reg) (s : State), ∃ t : State, exec (.sub rd ra rb) s = .next t ∧
    (t.reg rd).toInt = wrap32 ((s.reg ra).toInt - (s.reg rb).toInt) ∧
    t.flags.v = Config.vSub (s.reg ra) (s.reg rb) (t.reg rd) ∧ AluShape rd s t

/-- 41_alu R97. V is kept by R94, the spec's decision D18 (log 15). -/
def Obligations.AndResultFlagsFrame : Prop :=
  EncodedR3 .and .and ∧
  ∀ (rd ra rb : Reg) (s : State), ∃ t : State, exec (.and rd ra rb) s = .next t ∧
    (∀ j : Nat, j < 32 → (t.reg rd).getLsbD j = ((s.reg ra).getLsbD j && (s.reg rb).getLsbD j)) ∧
    t.flags.v = s.flags.v ∧ AluShape rd s t

/-- 42_alu_immediate R101: bit by bit with the immediate (bit `j` of an integer is `v / 2^j % 2`, with the division that rounds down), whose bits
from 15 up are copies of its sign. V is kept by R94,
the spec's decision D18 (log 15). -/
def Obligations.OrriResultFlagsFrame : Prop :=
  EncodedRI .orri .orri ∧
  ∀ (rd ra : Reg) (imm : Int) (s : State), -32768 ≤ imm → imm ≤ 32767 →
    ∃ t : State, exec (.orri rd ra imm) s = .next t ∧
      (∀ j : Nat, j < 32 → (t.reg rd).getLsbD j = ((s.reg ra).getLsbD j || decide (imm / 2 ^ j % 2 = 1))) ∧
      (∀ j : Nat, 15 ≤ j → (imm / 2 ^ j % 2 = 1 ↔ imm < 0)) ∧
      t.flags.v = s.flags.v ∧ AluShape rd s t

/-- 42_alu_immediate R103, R102. That `<<` is multiplication by `2^sh` is the spec's general knowledge (log 22, PRESUMED). Amounts of 32 and more are exact by the spec's decision D10 (log 9); for a negative amount
the result is the free value `SHIFT_NEG` (decision D9, log 8) and everything else is as for any result. V is kept by R94
(decision D18, log 15). -/
def Obligations.LslResultFlagsFrame : Prop :=
  EncodedRI .lsl .lsl ∧
  ∀ (rd ra : Reg) (sh : Int) (s : State), ∃ t : State, exec (.lsl rd ra sh) s = .next t ∧
    (0 ≤ sh → (t.reg rd).toInt = wrap32 ((s.reg ra).toInt * 2 ^ sh.toNat)) ∧
    (sh < 0 → t.reg rd = Config.shiftNeg .lsl (s.reg ra) sh) ∧
    t.flags.v = s.flags.v ∧ AluShape rd s t

/-- 42_alu_immediate R104, R102: `r` is the floor of `a / 2^sh`. That an arithmetic right shift is this floor is the spec's general
knowledge (log 22, PRESUMED). Amounts of 32 and more are exact by the spec's decision D10
(log 9); for a negative amount the result is the free value `SHIFT_NEG` (decision D9, log 8); V is the free value `V_ASR`
(decision D7, log 6). -/
def Obligations.AsrResultFlagsFrame : Prop :=
  EncodedRI .asr .asr ∧
  ∀ (rd ra : Reg) (sh : Int) (s : State), ∃ t : State, exec (.asr rd ra sh) s = .next t ∧
    (0 ≤ sh → (t.reg rd).toInt * 2 ^ sh.toNat ≤ (s.reg ra).toInt ∧ (s.reg ra).toInt < ((t.reg rd).toInt + 1) * 2 ^ sh.toNat) ∧
    (sh < 0 → t.reg rd = Config.shiftNeg .asr (s.reg ra) sh) ∧
    t.flags.v = Config.vAsr (s.reg ra) sh (t.reg rd) ∧ AluShape rd s t

/-- 43_branch R111. -/
def Obligations.BranchAlwaysTaken : Prop :=
  EncodedOff .b .b ∧
  ∀ (offset : Int) (s : State), ∃ t : State, exec (.b offset) s = .next t ∧ t.pc = s.pc + 1 + offset ∧
    RegsKept s t ∧ t.flags = s.flags ∧ MemoryKept s t

/-- 43_branch R112. -/
def Obligations.BranchIfZ : Prop :=
  EncodedOff .beq .beq ∧
  ∀ (offset : Int) (s : State), ∃ t : State, exec (.beq offset) s = .next t ∧
    (s.flags.z = true → t.pc = s.pc + 1 + offset) ∧ (s.flags.z = false → t.pc = s.pc + 1) ∧
    RegsKept s t ∧ t.flags = s.flags ∧ MemoryKept s t

/-- 43_branch R113. -/
def Obligations.BranchIfNDiffersFromV : Prop :=
  EncodedOff .blt .blt ∧
  ∀ (offset : Int) (s : State), ∃ t : State, exec (.blt offset) s = .next t ∧
    (s.flags.n ≠ s.flags.v → t.pc = s.pc + 1 + offset) ∧ (s.flags.n = s.flags.v → t.pc = s.pc + 1) ∧
    RegsKept s t ∧ t.flags = s.flags ∧ MemoryKept s t

/-- 44_load_store R121, 20_memory R35: the four bytes at the effective address, the most significant first. The address and
its wrap at the top of the space are the spec's decision D11 (log 10). -/
def Obligations.LdrResultFrame : Prop :=
  EncodedR3 .ldr .ldr ∧
  ∀ (rd ra rb : Reg) (s : State), ∃ t : State, exec (.ldr rd ra rb) s = .next t ∧
    (t.reg rd).toInt = signed 32 ((s.byte (byteAddr (s.ea ra rb) 0)).toNat * 2 ^ 24 + (s.byte (byteAddr (s.ea ra rb) 1)).toNat * 2 ^ 16 +
      (s.byte (byteAddr (s.ea ra rb) 2)).toNat * 2 ^ 8 + (s.byte (byteAddr (s.ea ra rb) 3)).toNat) ∧
    RegsKeptBut rd s t ∧ t.flags = s.flags ∧ t.pc = s.pc + 1 ∧ MemoryKept s t

/-- 44_load_store R122, 20_memory R36: the four bytes stored at the effective address, the most significant first; every
other byte reads as before; `WRITTEN` (decision D16, log 21) grows by the four addresses. The address and its wrap are the
spec's decision D11 (log 10). -/
def Obligations.StrStoresFrame : Prop :=
  EncodedR3 .str .str ∧
  ∀ (rd ra rb : Reg) (s : State), ∃ t : State, exec (.str rd ra rb) s = .next t ∧
    (t.byte (byteAddr (s.ea ra rb) 0)).toNat = (s.reg rd).toNat / 2 ^ 24 ∧
    (t.byte (byteAddr (s.ea ra rb) 1)).toNat = (s.reg rd).toNat / 2 ^ 16 % 256 ∧
    (t.byte (byteAddr (s.ea ra rb) 2)).toNat = (s.reg rd).toNat / 2 ^ 8 % 256 ∧
    (t.byte (byteAddr (s.ea ra rb) 3)).toNat = (s.reg rd).toNat % 256 ∧
    (∀ a : Nat, a ∉ wordAddrs (s.ea ra rb) → t.byte a = s.byte a) ∧
    (∀ a : Nat, a ∈ t.written ↔ a ∈ s.written ∨ a ∈ wordAddrs (s.ea ra rb)) ∧
    RegsKept s t ∧ t.flags = s.flags ∧ t.pc = s.pc + 1 ∧ t.imem = s.imem

/-! ## Flags -/

/-- 41_alu R91: after any of the six ALU instructions, N and Z are those of the result, as a number and as a pattern, and
never both 1. -/
def Obligations.NZAgreeWithTheResult : Prop :=
  ∀ (i : Instr) (s : State) (rd : Reg), writesNZ i = some rd → ∃ t : State, exec i s = .next t ∧
    NZFrom (t.reg rd) t ∧ t.flags.n = (t.reg rd).getLsbD 31 ∧ (t.flags.z = true ↔ t.reg rd = 0) ∧
    ¬(t.flags.n = true ∧ t.flags.z = true)

/-- 10_state R19's table: a flag an instruction does not write is kept (R94: the spec's decision D18, log 15), and B.EQ and
B.LT are the only readers: what the others do to registers, memory and pc does not depend on any flag. -/
def Obligations.FlagWritersAndReaders : Prop :=
  (∀ (i : Instr) (s : State), ∃ t : State, exec i s = .next t ∧
    (writesNZ i = none → t.flags.n = s.flags.n ∧ t.flags.z = s.flags.z) ∧ (writesV i = false → t.flags.v = s.flags.v)) ∧
  (∀ (i : Instr) (s : State) (f : Flags), (∀ o, i ≠ .beq o) → (∀ o, i ≠ .blt o) →
    ∃ t u : State, exec i s = .next t ∧ exec i { s with flags := f } = .next u ∧ u = { t with flags := u.flags }) ∧
  (∀ (o : Int) (s : State) (f : Flags), f.z = s.flags.z →
    ∃ t : State, exec (.beq o) s = .next t ∧ exec (.beq o) { s with flags := f } = .next { t with flags := f }) ∧
  ∀ (o : Int) (s : State) (f : Flags), f.n = s.flags.n → f.v = s.flags.v →
    ∃ t : State, exec (.blt o) s = .next t ∧ exec (.blt o) { s with flags := f } = .next { t with flags := f }

/-- 10_state R18: C is 0 at reset, no instruction writes it and none reads it; so it is 0 in every state of a run. -/
def Obligations.CarryIsConstantZero : Prop :=
  State.reset.flags.c = false ∧
  (∀ (i : Instr) (s : State) (c : Bool), ∃ t : State, exec i s = .next t ∧ t.flags.c = s.flags.c ∧
    exec i { s with flags := { s.flags with c := c } } = .next { t with flags := { t.flags with c := c } }) ∧
  ∀ (P : Params) (s t : State) (k : Nat), s.flags.c = false → run P k s = .next t → t.flags.c = false

/-- 41_alu R92, its consequences: `V_ADD` is the true overflow where an operand is not negative, and 0 for two negative
operands, even where their sum is below `-2^31`. It rests on reading A of the spec's decision D8 (log 7). -/
def Obligations.AddOverflowMissesTwoNegatives : Prop :=
  ∀ (rd ra rb : Reg) (s : State), ∃ t : State, exec (.add rd ra rb) s = .next t ∧
    ((0 ≤ (s.reg ra).toInt ∨ 0 ≤ (s.reg rb).toInt) →
      (t.flags.v = true ↔ (t.reg rd).toInt ≠ (s.reg ra).toInt + (s.reg rb).toInt)) ∧
    (t.flags.v = true ↔ 0 ≤ (s.reg ra).toInt ∧ 0 ≤ (s.reg rb).toInt ∧ 2 ^ 31 ≤ (s.reg ra).toInt + (s.reg rb).toInt) ∧
    ((s.reg ra).toInt < 0 → (s.reg rb).toInt < 0 → t.flags.v = false) ∧
    ((s.reg ra).toInt < 0 → (s.reg rb).toInt < 0 → (s.reg ra).toInt + (s.reg rb).toInt < -2 ^ 31 →
      (t.reg rd).toInt ≠ (s.reg ra).toInt + (s.reg rb).toInt)

/-! ## Shifts -/

/-- 42_alu_immediate R103: for an amount not negative, bit `j` of the result is bit `j - sh` of the operand and zeros enter
at bit 0; 32 and more gives 0 (the spec's decision D10, log 9). That `<<` moves bits is the spec's general knowledge (log 22). -/
def Obligations.LslMovesBits : Prop :=
  ∀ (rd ra : Reg) (sh : Int) (s : State), 0 ≤ sh → ∃ t : State, exec (.lsl rd ra sh) s = .next t ∧
    (∀ j : Nat, j < 32 → (t.reg rd).getLsbD j = (decide (sh.toNat ≤ j) && (s.reg ra).getLsbD (j - sh.toNat))) ∧
    (32 ≤ sh → t.reg rd = 0 ∧ t.flags.z = true ∧ t.flags.n = false) ∧ (sh = 0 → t.reg rd = s.reg ra)

/-- 42_alu_immediate R104: for an amount not negative, bit `j` of the result is bit `j + sh` of the operand, or its sign bit
past the top; 31 and more gives 0 or -1 (the spec's decision D10, log 9); N is the operand's sign. That an arithmetic right shift copies the sign is the
spec's general knowledge (log 22). -/
def Obligations.AsrCopiesTheSign : Prop :=
  ∀ (rd ra : Reg) (sh : Int) (s : State), 0 ≤ sh → ∃ t : State, exec (.asr rd ra sh) s = .next t ∧
    (∀ j : Nat, j < 32 → (t.reg rd).getLsbD j =
      if j + sh.toNat < 32 then (s.reg ra).getLsbD (j + sh.toNat) else (s.reg ra).getLsbD 31) ∧
    (31 ≤ sh → (t.reg rd).toInt = if (s.reg ra).toInt < 0 then -1 else 0) ∧
    (t.flags.n = true ↔ (s.reg ra).toInt < 0) ∧ (sh = 0 → t.reg rd = s.reg ra)

/-! ## Registers -/

/-- 10_state R12: a write stores the wrapped value in its register and in no other; every instruction leaves every register
but its destination alone; and a register that is no source of an instruction has no influence on what it does. -/
def Obligations.RegisterReadersAndWriters : Prop :=
  (∀ (s : State) (k : Reg) (v : Int), ((s.setReg k (narrow v)).reg k).toInt = wrap32 v ∧ RegsKeptBut k s (s.setReg k (narrow v))) ∧
  (∀ (i : Instr) (s : State), ∃ t : State, exec i s = .next t ∧ ∀ k : Reg, destination i ≠ some k → t.reg k = s.reg k) ∧
  ∀ (i : Instr) (s : State) (k : Reg) (v : Word), k ∉ sources i → ∃ t : State, exec i s = .next t ∧
    exec i (s.setReg k v) = .next (if destination i = some k then t else t.setReg k v)

/-! ## Data memory -/

/-- 20_memory R31, 44_load_store R120: `EA = trunc_32(x[Ra] + x[Rb])`, the same with `Ra` and `Rb` exchanged; byte `i` is at
`trunc_32(EA + i)`; the four addresses are distinct and in the space. All of it is the spec's decision D11 (log 10). -/
def Obligations.EffectiveAddressWraps : Prop :=
  (∀ (s : State) (ra rb : Reg), ((s.ea ra rb).toNat : Int) = trunc 32 ((s.reg ra).toInt + (s.reg rb).toInt) ∧
    s.ea ra rb = s.ea rb ra) ∧
  ∀ ea : Word, (∀ i : Nat, (byteAddr ea i : Int) = trunc 32 (ea.toNat + i)) ∧ (wordAddrs ea).Nodup

/-- 20_memory R35, R36: the two access primitives, at every address (log 10 for the wrap). -/
def Obligations.WordAccessIsBigEndian : Prop :=
  (∀ (s : State) (ea : Word), (s.memRead ea).toNat = (s.byte (byteAddr ea 0)).toNat * 2 ^ 24 +
    (s.byte (byteAddr ea 1)).toNat * 2 ^ 16 + (s.byte (byteAddr ea 2)).toNat * 2 ^ 8 + (s.byte (byteAddr ea 3)).toNat) ∧
  ∀ (s : State) (ea v : Word),
    ((s.memWrite ea v).byte (byteAddr ea 0)).toNat = v.toNat / 2 ^ 24 ∧
    ((s.memWrite ea v).byte (byteAddr ea 1)).toNat = v.toNat / 2 ^ 16 % 256 ∧
    ((s.memWrite ea v).byte (byteAddr ea 2)).toNat = v.toNat / 2 ^ 8 % 256 ∧
    ((s.memWrite ea v).byte (byteAddr ea 3)).toNat = v.toNat % 256 ∧
    (∀ a : Nat, a ∉ wordAddrs ea → (s.memWrite ea v).byte a = s.byte a) ∧
    ∀ a : Nat, a ∈ (s.memWrite ea v).written ↔ a ∈ s.written ∨ a ∈ wordAddrs ea

/-- 20_memory R32's overlap: a word read one byte above a stored word sees its low three bytes and then the old byte at
`EA + 4` (log 10 for the wrap). -/
def Obligations.OverlappingReadAfterStore : Prop :=
  ∀ (s : State) (ea v : Word),
    ((s.memWrite ea v).memRead (ea + 1)).toNat = v.toNat % 2 ^ 24 * 2 ^ 8 + (s.byte (byteAddr ea 4)).toNat

/-- 44_load_store R123, at every address, misaligned and across the top of the space (log 10 for the wrap); `Rx` may be any
register, `Ra` and `Rb` included. -/
def Obligations.StoreThenLoadReturnsTheValue : Prop :=
  ∀ (rd rx ra rb : Reg) (s : State), ∃ t u : State, exec (.str rd ra rb) s = .next t ∧ exec (.ldr rx ra rb) t = .next u ∧
    u.reg rx = s.reg rd

/-- Only STR changes data memory or `WRITTEN`, and only at its four addresses (20_memory R36, R37; 10_state R24, decision
D16, log 21). -/
def Obligations.OnlyStoresChangeMemory : Prop :=
  ∀ (i : Instr) (s : State), ∃ t : State, exec i s = .next t ∧
    (storesTo s i = none → MemoryKept s t) ∧
    ∀ ea : Word, storesTo s i = some ea →
      (∀ a : Nat, a ∉ wordAddrs ea → t.byte a = s.byte a) ∧ ∀ a : Nat, a ∈ t.written ↔ a ∈ s.written ∨ a ∈ wordAddrs ea

/-- 20_memory R43, R30; 10_state R22: no instruction writes or reads IMEM, no run changes it, and no store is seen by a
fetch. -/
def Obligations.InstructionMemoryIsImmutable : Prop :=
  (∀ (i : Instr) (s : State) (program : List Word), ∃ t : State, exec i s = .next t ∧ t.imem = s.imem ∧
    exec i { s with imem := program } = .next { t with imem := program }) ∧
  (∀ (P : Params) (s t : State) (k : Nat), run P k s = .next t → t.imem = s.imem) ∧
  ∀ (s : State) (ea v : Word), (s.memWrite ea v).fetch = s.fetch

/-! ## Invariants -/

/-- The canonical forms of data memory and `WRITTEN`, the zero of unwritten bytes and the zero of C are kept by every step
(10_state R18, R23, R24), for any parameters and for `step`. -/
def Obligations.EveryStepKeepsTheInvariant : Prop :=
  ∀ (P : Params) (s t : State), s.Inv → (cycle P s = .next t ∨ step s = .next t) → t.Inv

/-- The invariant holds at reset, whatever program is loaded. -/
def Obligations.ResetMeetsTheInvariant : Prop :=
  State.reset.Inv ∧ State.reset.PcInRange ∧ ∀ program : List Word, (State.loaded program).Inv ∧ (State.loaded program).PcInRange

/-- 10_state R16: the range of the pc is kept by every step; from a running state the step enters it in any case. The pc
without a width is the spec's decision D12 (log 11). -/
def Obligations.EveryStepKeepsThePcInRange : Prop :=
  ∀ (P : Params) (s t : State), (s.PcInRange ∨ s.running = true) → cycle P s = .next t → t.PcInRange

/-- Every state a run reaches from reset with any program loaded meets the invariant, has its pc in the range of 10_state
R16 and the same program (R22). The pc without a width is the spec's decision D12 (log 11), the ghost set `WRITTEN` decision D16
(log 21). -/
def Obligations.ReachableStatesMeetTheInvariant : Prop :=
  ∀ (P : Params) (program : List Word) (k : Nat) (t : State), run P k (State.loaded program) = .next t →
    t.Inv ∧ t.PcInRange ∧ t.imem = program

/-! ## Decoding and encoding -/

/-- 30_encoding R64 (the spec's decision D3, log 3): decoding an encoded well-formed instruction gives it back, under every
injective opcode map and both padding policies. -/
def Obligations.DecodeAfterEncode : Prop :=
  ∀ (P : Params) (i : Instr), P.opcodes.Injective → i.wellFormed = true → decodeWith P (encodeWith P.opcodes i) = .ok i

/-- 30_encoding R64 (decision D3, log 3): under strict padding, encoding what a word decodes to gives the word back; and what
decodes is well-formed under either policy (R61, R62). -/
def Obligations.EncodeAfterDecode : Prop :=
  (∀ (m : OpcodeMap) (w : Word) (i : Instr), decodeWith { opcodes := m, pad := .invalid } w = .ok i → encodeWith m i = w) ∧
  ∀ (P : Params) (w : Word) (i : Instr), decodeWith P w = .ok i → i.wellFormed = true

/-- 30_encoding R65, R66 (the spec's decisions D4, D5; logs 4, 5): a word is invalid exactly when no mnemonic has its opcode, or,
under the strict policy, when a padding bit is set: `w[25:0]` of NOP, `w[10:0]` of R3 and MEM. -/
def Obligations.InvalidWordsExactly : Prop :=
  ∀ (P : Params) (w : Word), P.opcodes.Injective →
    ((∃ e, decodeWith P w = .error e) ↔
      (∀ k : Mnemonic, (P.opcodes.code k).toNat ≠ w.toNat / 2 ^ 26) ∨
      (P.pad = .invalid ∧ ∃ k : Mnemonic, (P.opcodes.code k).toNat = w.toNat / 2 ^ 26 ∧
        ((k = .nop ∧ w.toNat % 2 ^ 26 ≠ 0) ∨
          (k ∈ [Mnemonic.add, .sub, .and, .ldr, .str] ∧ w.toNat % 2 ^ 11 ≠ 0))))

/-- 30_encoding R66 (decision D5, log 5): what the strict policy decodes, `ignore` decodes the same; under `ignore` a word decodes exactly
when its opcode is assigned, and the padding bits have no influence. -/
def Obligations.IgnoringPadding : Prop :=
  (∀ (m : OpcodeMap) (w : Word) (i : Instr), decodeWith { opcodes := m, pad := .invalid } w = .ok i →
    decodeWith { opcodes := m, pad := .ignore } w = .ok i) ∧
  (∀ (m : OpcodeMap) (w : Word), (∃ i, decodeWith { opcodes := m, pad := .ignore } w = .ok i) ↔
    ∃ k : Mnemonic, (m.code k).toNat = w.toNat / 2 ^ 26) ∧
  (∀ (m : OpcodeMap) (w : Word), m.Injective → (m.code .nop).toNat = w.toNat / 2 ^ 26 →
    decodeWith { opcodes := m, pad := .ignore } w = .ok .nop) ∧
  ∀ (m : OpcodeMap) (k : Mnemonic) (w u : Word), m.Injective → k ∈ [Mnemonic.add, .sub, .and, .ldr, .str] →
    (m.code k).toNat = w.toNat / 2 ^ 26 → w.toNat / 2 ^ 11 = u.toNat / 2 ^ 11 →
    decodeWith { opcodes := m, pad := .ignore } w = decodeWith { opcodes := m, pad := .ignore } u

/-- 30_encoding R65: of the 64 opcode values 52 are unassigned, under every injective map. -/
def Obligations.FiftyTwoOpcodesUnassigned : Prop :=
  ∀ m : OpcodeMap, m.Injective → (List.range 64).countP (fun c => (m.mnemonicOf (BitVec.ofNat 6 c)).isNone) = 52

/-- 30_encoding R52, R63: the encoder takes integers of any size, keeps of each the low bits of its field, and rejects none; only a
wrong number of operands gives no word. In range, decoding gives the instruction back. -/
def Obligations.EncoderTruncates : Prop :=
  (∀ m : OpcodeMap, ∃ w, encodeOperands m .nop [] = some w ∧ w.toNat = (m.code .nop).toNat * 2 ^ 26) ∧
  (∀ (m : OpcodeMap) (k : Mnemonic) (d a b : Int), k ∈ [Mnemonic.add, .sub, .and, .ldr, .str] →
    ∃ w, encodeOperands m k [d, a, b] = some w ∧
      (w.toNat : Int) = (m.code k).toNat * 2 ^ 26 + trunc 5 d * 2 ^ 21 + trunc 5 a * 2 ^ 16 + trunc 5 b * 2 ^ 11) ∧
  (∀ (m : OpcodeMap) (k : Mnemonic) (d a v : Int), k ∈ [Mnemonic.orri, .lsl, .asr] →
    ∃ w, encodeOperands m k [d, a, v] = some w ∧
      (w.toNat : Int) = (m.code k).toNat * 2 ^ 26 + trunc 5 d * 2 ^ 21 + trunc 5 a * 2 ^ 16 + trunc 16 v) ∧
  (∀ (m : OpcodeMap) (k : Mnemonic) (v : Int), k ∈ [Mnemonic.b, .beq, .blt] →
    ∃ w, encodeOperands m k [v] = some w ∧ (w.toNat : Int) = (m.code k).toNat * 2 ^ 26 + trunc 26 v) ∧
  ∀ (P : Params) (i : Instr), P.opcodes.Injective → i.wellFormed = true →
    ∃ w, encodeOperands P.opcodes i.mnemonic i.operands = some w ∧ decodeWith P w = .ok i

/-- 30_encoding R54 to R58: words written out bit by bit from the formats, one of each family, under the reference opcodes
(the spec's decision D1, log 1). -/
def Obligations.SampleWordsDecode : Prop :=
  decode 0b000000_00000000000000000000000000 = .ok .nop ∧
  decode 0b000001_00001_00010_00011_00000000000 = .ok (.add 1 2 3) ∧
  decode 0b000100_00001_00000_1111111111111111 = .ok (.orri 1 0 (-1)) ∧
  decode 0b000111_11111111111111111111111100 = .ok (.b (-4)) ∧
  decode 0b001010_00011_00001_00010_00000000000 = .ok (.ldr 3 1 2) ∧
  decode 0b001011_11111_11110_11101_00000000000 = .ok (.str 31 30 29)

/-- 30_encoding R59 (decision D1, log 1): what a program of decoded instructions does is the same under every injective opcode map and
either padding policy. -/
def Obligations.OpcodeMapDoesNotMatter : Prop :=
  ∀ (P Q : Params) (program : List Instr) (s : State), P.opcodes.Injective → Q.opcodes.Injective →
    (∀ i ∈ program, i.wellFormed = true) → s.imem = program.map (encodeWith P.opcodes) →
    ∀ k : Nat, ∃ t : State, run P k s = .next t ∧
      run Q k { s with imem := program.map (encodeWith Q.opcodes) } =
        .next { t with imem := program.map (encodeWith Q.opcodes) }

/-! ## The host and the assembler -/

/-- 40_engine_nop R86, 60_exceptions R131: "a program produced by the assembler … never contains an invalid word", so no run of one,
from any state, takes the INVALID stop. -/
def Obligations.AssembledProgramsNeverStop : Prop :=
  ∀ (P : Params) (lines : List Asm.Line) (program : List Word), P.opcodes.Injective →
    Asm.assemble P.opcodes lines = .ok program →
    program.length = lines.length ∧ ProgramDecodes P program ∧ ∀ s : State, s.imem = program → Safe P s

/-- 30_encoding R73: the texts of a memory operand are exactly `R<d>,[R<a>,R<b>]` and `R<d>,[R<a>+R<b>]`, and the two spellings assemble
to the same word, that of the three numbers. That register numbers are decimal digits is the spec's decision D21 (log 19). -/
def Obligations.MemoryOperandSpellings : Prop :=
  (∀ (t : Asm.Line) (vs : List Int), Asm.parseMem t = some vs ↔
    ∃ (d a b : Asm.Line) (sep : Char), Digits d ∧ Digits a ∧ Digits b ∧ sep ∈ [',', '+'] ∧ t = memText d a b sep ∧
      vs = [(decimal d : Int), (decimal a : Int), (decimal b : Int)]) ∧
  ∀ (m : OpcodeMap) (k : Mnemonic) (d a b : Asm.Line), k = .ldr ∨ k = .str → Digits d → Digits a → Digits b →
    ∃ w, encodeOperands m k [(decimal d : Int), (decimal a : Int), (decimal b : Int)] = some w ∧
      ∀ sep ∈ [',', '+'], Asm.assembleLine m (Asm.spelling k ++ ' ' :: memText d a b sep) = .ok w

/-- 30_encoding R70: case and white space. Mnemonics and operands are case-insensitive; leading white space, and white space anywhere after
the white space character that ends the mnemonic, is insignificant, and whichever white space character ends it makes no difference. What counts as white space is log 19. -/
def Obligations.CaseAndBlanksInsignificant : Prop :=
  (∀ line : Asm.Line, Asm.parseLine (line.map Asm.upper) = Asm.parseLine line) ∧
  (∀ (c : Char) (line : Asm.Line), Asm.isBlank c = true → Asm.parseLine (c :: line) = Asm.parseLine line) ∧
  ∀ (c d e : Char) (head x y : Asm.Line), Asm.isBlank c = true → Asm.isBlank d = true → Asm.isBlank e = true → head ≠ [] →
    (∀ h ∈ head, Asm.isBlank h = false) →
    Asm.parseLine (head ++ d :: (x ++ c :: y)) = Asm.parseLine (head ++ e :: (x ++ y))

/-- 70_reset R152: the read-out lists the registers that do not hold zero and the byte of each written address. -/
def Obligations.ReadOutOfTheFinalState : Prop :=
  (∀ (s : State) (k : Reg) (v : Word), (k, v) ∈ s.dumpRegs ↔ v = s.reg k ∧ v ≠ 0) ∧
  ∀ (s : State) (a : Nat) (v : Byte), (a, v) ∈ s.dumpMem ↔ a ∈ s.written ∧ v = s.byte a

/-- The model's own convention for placing one instruction (log 18): the next step fetches exactly the word placed, and registers, flags and
data memory are as before. -/
def Obligations.PlacedWordIsFetched : Prop :=
  ∀ (s : State) (nbits w : Nat), w < 2 ^ 32 → ∃ u : Word, u.toNat = w ∧ (s.withFetchWord nbits w).fetch = some u ∧
    RegsKept s (s.withFetchWord nbits w) ∧ (s.withFetchWord nbits w).flags = s.flags ∧
    (∀ a : Nat, (s.withFetchWord nbits w).byte a = s.byte a) ∧ (s.withFetchWord nbits w).written = s.written ∧
    (0 ≤ s.pc → (s.withFetchWord nbits w).pc = s.pc)
end

