-- ==== Sys2Proof/Laws/State.lean ====
section
/-! SUPPORT. The fields of a state after each shared operation, one lemma per field per operation, and what a register
read gives after a register write. -/

namespace Sys2Proof.Machine

variable (s : State)

/-! ## advance -/

@[simp] theorem State.advance_regs (d : Int) : (s.advance d).regs = s.regs := rfl
@[simp] theorem State.advance_reg (d : Int) (k : Reg) : (s.advance d).reg k = s.reg k := rfl
@[simp] theorem State.advance_flags (d : Int) : (s.advance d).flags = s.flags := rfl
@[simp] theorem State.advance_pc (d : Int) : (s.advance d).pc = s.pc + 1 + d := rfl
@[simp] theorem State.advance_mem (d : Int) : (s.advance d).mem = s.mem := rfl
@[simp] theorem State.advance_byte (d : Int) (a : Nat) : (s.advance d).byte a = s.byte a := rfl
@[simp] theorem State.advance_written (d : Int) : (s.advance d).written = s.written := rfl
@[simp] theorem State.advance_imem (d : Int) : (s.advance d).imem = s.imem := rfl

@[simp] theorem State.advance_memRead (d : Int) (ea : Word) : (s.advance d).memRead ea = s.memRead ea := rfl
@[simp] theorem State.advance_ea (d : Int) (ra rb : Reg) : (s.advance d).ea ra rb = s.ea ra rb := rfl

/-! ## setReg -/

@[simp] theorem State.setReg_flags (k : Reg) (v : Word) : (s.setReg k v).flags = s.flags := rfl
@[simp] theorem State.setReg_pc (k : Reg) (v : Word) : (s.setReg k v).pc = s.pc := rfl
@[simp] theorem State.setReg_mem (k : Reg) (v : Word) : (s.setReg k v).mem = s.mem := rfl
@[simp] theorem State.setReg_byte (k : Reg) (v : Word) (a : Nat) : (s.setReg k v).byte a = s.byte a := rfl
@[simp] theorem State.setReg_memRead (k : Reg) (v ea : Word) : (s.setReg k v).memRead ea = s.memRead ea := rfl
@[simp] theorem State.setReg_written (k : Reg) (v : Word) : (s.setReg k v).written = s.written := rfl
@[simp] theorem State.setReg_imem (k : Reg) (v : Word) : (s.setReg k v).imem = s.imem := rfl

/-- A register read after a register write. -/
theorem State.reg_setReg (k j : Reg) (v : Word) : (s.setReg k v).reg j = if j = k then v else s.reg j := by
  by_cases h : j = k
  · subst h; simp [State.reg, State.setReg]
  · have h' : (k : Nat) ≠ j := fun e => h (Fin.ext e.symm)
    simp [State.reg, State.setReg, h, h']

@[simp] theorem State.reg_setReg_same (k : Reg) (v : Word) : (s.setReg k v).reg k = v := by simp [State.reg_setReg]

@[simp] theorem State.reg_setReg_other {k j : Reg} (v : Word) (h : j ≠ k) : (s.setReg k v).reg j = s.reg j := by
  simp [State.reg_setReg, h]

/-- The second of two writes to one register stands. -/
@[simp] theorem State.setReg_setReg_same (k : Reg) (v w : Word) : (s.setReg k v).setReg k w = s.setReg k w := by
  simp [State.setReg]

/-- Writes to two registers may be exchanged. -/
theorem State.setReg_comm {j k : Reg} (v w : Word) (h : j ≠ k) :
    (s.setReg j v).setReg k w = (s.setReg k w).setReg j v := by
  have h' : (j : Nat) ≠ k := fun e => h (Fin.ext e)
  simp [State.setReg, Vector.set_comm _ _ h']

/-! ## storeByte, memWrite -/

@[simp] theorem State.storeByte_regs (a : Nat) (b : Byte) : (s.storeByte a b).regs = s.regs := rfl
@[simp] theorem State.storeByte_flags (a : Nat) (b : Byte) : (s.storeByte a b).flags = s.flags := rfl
@[simp] theorem State.storeByte_pc (a : Nat) (b : Byte) : (s.storeByte a b).pc = s.pc := rfl
@[simp] theorem State.storeByte_mem (a : Nat) (b : Byte) : (s.storeByte a b).mem = s.mem.write a b := rfl
@[simp] theorem State.storeByte_written (a : Nat) (b : Byte) : (s.storeByte a b).written = insertAddr s.written a := rfl
@[simp] theorem State.storeByte_imem (a : Nat) (b : Byte) : (s.storeByte a b).imem = s.imem := rfl

@[simp] theorem State.memWrite_regs (ea v : Word) : (s.memWrite ea v).regs = s.regs := rfl
@[simp] theorem State.memWrite_reg (ea v : Word) (k : Reg) : (s.memWrite ea v).reg k = s.reg k := rfl
@[simp] theorem State.memWrite_flags (ea v : Word) : (s.memWrite ea v).flags = s.flags := rfl
@[simp] theorem State.memWrite_pc (ea v : Word) : (s.memWrite ea v).pc = s.pc := rfl
@[simp] theorem State.memWrite_ea (ea v : Word) (ra rb : Reg) : (s.memWrite ea v).ea ra rb = s.ea ra rb := rfl
@[simp] theorem State.memWrite_imem (ea v : Word) : (s.memWrite ea v).imem = s.imem := rfl

/-! ## aluEnd -/

@[simp] theorem State.aluEnd_pc (rd : Reg) (r : Word) (v : Option Bool) : (s.aluEnd rd r v).pc = s.pc + 1 := by
  simp [State.aluEnd]
@[simp] theorem State.aluEnd_mem (rd : Reg) (r : Word) (v : Option Bool) : (s.aluEnd rd r v).mem = s.mem := rfl
@[simp] theorem State.aluEnd_byte (rd : Reg) (r : Word) (v : Option Bool) (a : Nat) : (s.aluEnd rd r v).byte a = s.byte a := rfl
@[simp] theorem State.aluEnd_written (rd : Reg) (r : Word) (v : Option Bool) : (s.aluEnd rd r v).written = s.written := rfl
@[simp] theorem State.aluEnd_imem (rd : Reg) (r : Word) (v : Option Bool) : (s.aluEnd rd r v).imem = s.imem := rfl
@[simp] theorem State.aluEnd_flags_n (rd : Reg) (r : Word) (v : Option Bool) : (s.aluEnd rd r v).flags.n = negative r := rfl
@[simp] theorem State.aluEnd_flags_z (rd : Reg) (r : Word) (v : Option Bool) : (s.aluEnd rd r v).flags.z = zero r := rfl
@[simp] theorem State.aluEnd_flags_c (rd : Reg) (r : Word) (v : Option Bool) : (s.aluEnd rd r v).flags.c = s.flags.c := rfl
@[simp] theorem State.aluEnd_flags_v (rd : Reg) (r : Word) (v : Option Bool) :
    (s.aluEnd rd r v).flags.v = v.getD s.flags.v := rfl
theorem State.aluEnd_reg (rd k : Reg) (r : Word) (v : Option Bool) :
    (s.aluEnd rd r v).reg k = if k = rd then r else s.reg k := s.reg_setReg rd k r
@[simp] theorem State.aluEnd_reg_same (rd : Reg) (r : Word) (v : Option Bool) : (s.aluEnd rd r v).reg rd = r :=
  s.reg_setReg_same rd r
@[simp] theorem State.aluEnd_reg_other {rd k : Reg} (r : Word) (v : Option Bool) (h : k ≠ rd) :
    (s.aluEnd rd r v).reg k = s.reg k := s.reg_setReg_other r h

end Sys2Proof.Machine
end

