-- ==== Sys2Proof/Laws/Memory.lean ====
section
/-! SUPPORT. Data memory: read after write, the canonical form, the ghost set; then the word accesses of 20_memory R35
and R36, said once. -/

namespace Sys2Proof.Machine

/-! ## One byte -/

theorem Memory.read_without (m : Memory) (a x : Nat) :
    (m.without a).read x = if x = a then Memory.unlisted else m.read x := by
  induction m with
  | nil => simp [Memory.without, Memory.read]
  | cons c rest ih =>
    obtain ⟨k, v⟩ := c
    by_cases hk : k = a
    · have e : Memory.without ((k, v) :: rest) a = Memory.without rest a := by simp [Memory.without, hk]
      rw [e, ih]
      by_cases hx : x = a
      · simp [hx]
      · have : x ≠ k := by omega
        simp [hx, Memory.read, this]
    · have e : Memory.without ((k, v) :: rest) a = (k, v) :: Memory.without rest a := by simp [Memory.without, hk]
      rw [e, Memory.read, Memory.read, ih]
      by_cases hx : x = k
      · have : x ≠ a := by omega
        simp [hx, hk]
      · simp [hx]

theorem Memory.read_place (m : Memory) (a x : Nat) (b : Byte) (h : ∀ c ∈ m, c.1 ≠ a) :
    (m.place a b).read x = if x = a then b else m.read x := by
  induction m with
  | nil => rfl
  | cons c rest ih =>
    obtain ⟨k, v⟩ := c
    have hk : k ≠ a := h (k, v) (by simp)
    simp only [Memory.place]
    split
    · rfl
    · rw [Memory.read, Memory.read, ih fun c hc => h c (by simp [hc])]
      by_cases hx : x = k
      · simp [hx, hk]
      · simp [hx]

theorem Memory.ne_of_mem_without {m : Memory} {a : Nat} {c : Host.Cell} (h : c ∈ m.without a) : c.1 ≠ a := by
  simpa using (List.mem_filter.1 h).2

/-- Read after write, at the same address and at every other; of any list, canonical or not. -/
theorem Memory.read_write (m : Memory) (a x : Nat) (b : Byte) :
    (m.write a b).read x = if x = a then b else m.read x := by
  unfold Memory.write
  split
  · rename_i hb; rw [Memory.read_without, hb]
  · rw [Memory.read_place _ _ _ _ fun c hc => Memory.ne_of_mem_without hc, Memory.read_without]
    split <;> simp_all

/-! ## The canonical form -/

/-- The addresses of a memory rise strictly. -/
abbrev Memory.Rising (m : Memory) : Prop := m.Pairwise (fun c d => c.1 < d.1)

theorem Memory.wf_iff (m : Memory) :
    m.wf = true ↔ m.Rising ∧ ∀ c ∈ m, c.1 < 2 ^ 32 ∧ c.2 ≠ Memory.unlisted := by
  simp [Memory.wf, Memory.Rising, List.pairwise_map]

theorem Memory.mem_place (m : Memory) (a : Nat) (b : Byte) (c : Host.Cell) :
    c ∈ m.place a b ↔ c = (a, b) ∨ c ∈ m := by
  induction m with
  | nil => simp [Memory.place]
  | cons d rest ih =>
    obtain ⟨k, v⟩ := d
    simp only [Memory.place]
    split
    · simp
    · simp only [List.mem_cons, ih]; tauto

theorem Memory.rising_place {m : Memory} (hm : m.Rising) {a : Nat} (h : ∀ c ∈ m, c.1 ≠ a) (b : Byte) :
    (m.place a b).Rising := by
  induction m with
  | nil => simp [Memory.place, Memory.Rising]
  | cons d rest ih =>
    obtain ⟨k, v⟩ := d
    have hd := List.pairwise_cons.1 hm
    have hk : k ≠ a := h (k, v) (by simp)
    simp only [Memory.place]
    split
    · rename_i hlt
      refine List.pairwise_cons.2 ⟨fun c hc => ?_, hm⟩
      rcases List.mem_cons.1 hc with rfl | hc
      · exact hlt
      · exact lt_trans hlt (hd.1 c hc)
    · refine List.pairwise_cons.2 ⟨fun c hc => ?_, ih hd.2 fun c hc => h c (by simp [hc])⟩
      rcases (Memory.mem_place rest a b c).1 hc with rfl | hc
      · show k < a; omega
      · exact hd.1 c hc

/-- A write at an address of the data space keeps the canonical form. -/
theorem Memory.wf_write {m : Memory} (hm : m.wf = true) {a : Nat} (ha : a < 2 ^ 32) (b : Byte) :
    (m.write a b).wf = true := by
  rw [Memory.wf_iff] at *
  have he : (m.without a).Rising := hm.1.filter _
  have hc : ∀ c ∈ m.without a, c.1 < 2 ^ 32 ∧ c.2 ≠ Memory.unlisted := fun c h => hm.2 c (List.mem_filter.1 h).1
  unfold Memory.write
  split
  · exact ⟨he, hc⟩
  · rename_i hb
    refine ⟨Memory.rising_place he (fun c h => Memory.ne_of_mem_without h) b, fun c h => ?_⟩
    rcases (Memory.mem_place _ _ _ _).1 h with rfl | h
    · exact ⟨ha, hb⟩
    · exact hc c h

/-! ## The ghost set -/

theorem mem_insertAddr (l : List Nat) (a x : Nat) : x ∈ insertAddr l a ↔ x = a ∨ x ∈ l := by
  induction l with
  | nil => simp [insertAddr]
  | cons k rest ih =>
    simp only [insertAddr]
    split_ifs with h1 h2
    · simp
    · subst h2; simp
    · simp only [List.mem_cons, ih]; tauto

theorem pairwise_insertAddr {l : List Nat} (hl : l.Pairwise (· < ·)) (a : Nat) : (insertAddr l a).Pairwise (· < ·) := by
  induction l with
  | nil => simp [insertAddr]
  | cons k rest ih =>
    have hl' := hl
    rw [List.pairwise_cons] at hl
    simp only [insertAddr]
    split_ifs with h1 h2
    · refine List.pairwise_cons.2 ⟨fun x hx => ?_, hl'⟩
      rcases List.mem_cons.1 hx with rfl | hx
      · exact h1
      · exact lt_trans h1 (hl.1 x hx)
    · exact hl'
    · refine List.pairwise_cons.2 ⟨fun x hx => ?_, ih hl.2⟩
      rcases (mem_insertAddr rest a x).1 hx with rfl | hx
      · omega
      · exact hl.1 x hx

/-- Adding an address of the data space keeps the ghost set canonical. -/
theorem writtenWf_insertAddr {l : List Nat} (hl : writtenWf l = true) {a : Nat} (ha : a < 2 ^ 32) :
    writtenWf (insertAddr l a) = true := by
  simp only [writtenWf, Bool.and_eq_true, decide_eq_true_eq, List.all_eq_true] at *
  refine ⟨pairwise_insertAddr hl.1 a, fun x hx => ?_⟩
  rcases (mem_insertAddr l a x).1 hx with rfl | hx
  · exact ha
  · exact hl.2 x hx

/-! ## Word accesses -/

theorem byteAddr_lt (ea : Word) (i : Nat) : byteAddr ea i < 2 ^ 32 := (ea + BitVec.ofNat 32 i).isLt

/-- `trunc_32(EA + i)` as a number. -/
theorem byteAddr_eq (ea : Word) (i : Nat) : byteAddr ea i = (ea.toNat + i) % 2 ^ 32 := by
  simp [byteAddr, BitVec.toNat_add]

/-- The byte of a state after a byte is stored. -/
theorem State.storeByte_byte (s : State) (a x : Nat) (b : Byte) :
    (s.storeByte a b).byte x = if x = a then b else s.byte x := Memory.read_write s.mem a x b

/-- The four stored bytes, the most significant first, and every other byte as before. -/
theorem State.memWrite_byte (s : State) (ea v : Word) (x : Nat) :
    (s.memWrite ea v).byte x =
      if x = byteAddr ea 3 then v.extractLsb' 0 8
      else if x = byteAddr ea 2 then v.extractLsb' 8 8
      else if x = byteAddr ea 1 then v.extractLsb' 16 8
      else if x = byteAddr ea 0 then v.extractLsb' 24 8
      else s.byte x := by
  simp only [State.memWrite, State.storeByte_byte]

/-- `WRITTEN` after a word is stored. -/
theorem State.mem_memWrite_written (s : State) (ea v : Word) (x : Nat) :
    x ∈ (s.memWrite ea v).written ↔
      x = byteAddr ea 3 ∨ x = byteAddr ea 2 ∨ x = byteAddr ea 1 ∨ x = byteAddr ea 0 ∨ x ∈ s.written := by
  simp [State.memWrite, mem_insertAddr]

/-- A byte stored at an address of the data space keeps the two canonical forms. -/
theorem State.wf_storeByte {s : State} (hm : s.mem.wf = true) (hw : writtenWf s.written = true) {a : Nat}
    (ha : a < 2 ^ 32) (b : Byte) :
    (s.storeByte a b).mem.wf = true ∧ writtenWf (s.storeByte a b).written = true :=
  ⟨Memory.wf_write hm ha b, writtenWf_insertAddr hw ha⟩

/-- A word store keeps the two canonical forms, wherever it goes. -/
theorem State.wf_memWrite {s : State} (hm : s.mem.wf = true) (hw : writtenWf s.written = true) (ea v : Word) :
    (s.memWrite ea v).mem.wf = true ∧ writtenWf (s.memWrite ea v).written = true := by
  obtain ⟨m0, w0⟩ := State.wf_storeByte hm hw (byteAddr_lt ea 0) (v.extractLsb' 24 8)
  obtain ⟨m1, w1⟩ := State.wf_storeByte m0 w0 (byteAddr_lt ea 1) (v.extractLsb' 16 8)
  obtain ⟨m2, w2⟩ := State.wf_storeByte m1 w1 (byteAddr_lt ea 2) (v.extractLsb' 8 8)
  exact State.wf_storeByte m2 w2 (byteAddr_lt ea 3) (v.extractLsb' 0 8)

end Sys2Proof.Machine
end

