-- ==== Sys2Proof/Laws/Words.lean ====
section
/-! SUPPORT. Narrowing, the notation of 00_scope R6, and the flag tests, each in arithmetic. -/

namespace Sys2Proof

/-- `wrap32` is the balanced remainder of the library. -/
theorem wrap32_eq_bmod (v : Int) : wrap32 v = v.bmod (2 ^ 32) := by
  simp only [wrap32, signed, trunc, Int.bmod]
  norm_num

/-- `wrap32` leaves a value of the 32-bit range alone. -/
theorem wrap32_of_range {v : Int} (h : -2 ^ 31 ≤ v) (h' : v < 2 ^ 31) : wrap32 v = v := by
  rw [wrap32_eq_bmod]
  exact Int.bmod_eq_of_le (by omega) (by omega)

namespace Machine

/-- The signed value of a narrowed integer (41_alu R90). -/
@[simp] theorem toInt_narrow (v : Int) : (narrow v).toInt = wrap32 v := by
  rw [wrap32_eq_bmod]; exact BitVec.toInt_ofInt v

/-- The unsigned value of a narrowed integer. -/
theorem toNat_narrow (v : Int) : ((narrow v).toNat : Int) = trunc 32 v := by
  have h : (0 : Int) ≤ v % 2 ^ 32 := Int.emod_nonneg _ (by norm_num)
  simp only [narrow, BitVec.toNat_ofInt, trunc]
  push_cast
  omega

/-- Bit `j` of a narrowed integer. -/
theorem getLsbD_narrow (v : Int) {j : Nat} (hj : j < 32) : (narrow v).getLsbD j = decide (v / 2 ^ j % 2 = 1) := by
  have h : ((narrow v).toNat : Int) = v % 2 ^ 32 := toNat_narrow v
  have e : v % 2 ^ 32 / 2 ^ j % 2 = v / 2 ^ j % 2 := by
    have h0 : (0 : Int) < 2 ^ j := by positivity
    obtain ⟨d, hd⟩ : ∃ d, 32 = j + (d + 1) := ⟨31 - j, by omega⟩
    have e1 : v % 2 ^ 32 = v + 2 ^ j * (-(2 * (2 ^ d * (v / 2 ^ 32)))) := by
      rw [Int.emod_def]
      have : (2 : Int) ^ 32 = 2 ^ j * (2 ^ d * 2) := by rw [← pow_succ, ← pow_add, ← hd]
      rw [this]; ring
    rw [e1, Int.add_mul_ediv_left _ _ h0.ne']
    generalize (2 : Int) ^ d * (v / 2 ^ 32) = q
    omega
  rw [BitVec.getLsbD, Nat.testBit_eq_decide_div_mod_eq, ← e, ← h]
  congr 1
  norm_cast

/-- A word is what its signed value narrows to. -/
@[simp] theorem narrow_toInt (w : Word) : narrow w.toInt = w := BitVec.ofInt_toInt

@[simp] theorem negative_iff (r : Word) : negative r = true ↔ r.toInt < 0 := by simp [negative]

@[simp] theorem zero_iff (r : Word) : zero r = true ↔ r.toInt = 0 := by simp [zero]

/-- `V_ADD` as the spec writes it (41_alu R92). -/
@[simp] theorem vAdd_iff (a b r : Word) : vAdd a b r = true ↔ 0 ≤ a.toInt ∧ 0 ≤ b.toInt ∧ r.toInt < a.toInt := by
  simp [vAdd, and_assoc]

/-- The shift results off the free half. -/
theorem lslResult_of_nonneg (a : Word) {sh : Int} (h : 0 ≤ sh) :
    lslResult a sh = narrow (a.toInt * 2 ^ sh.toNat) := by simp [lslResult, h]

theorem lslResult_of_neg (a : Word) {sh : Int} (h : sh < 0) : lslResult a sh = Config.shiftNeg .lsl a sh := by
  have h' : ¬0 ≤ sh := by omega
  simp [lslResult, h']

theorem asrResult_of_nonneg (a : Word) {sh : Int} (h : 0 ≤ sh) :
    asrResult a sh = narrow (a.toInt / 2 ^ sh.toNat) := by
  have e := Int.fdiv_eq_ediv_of_nonneg a.toInt (b := ((2 ^ sh.toNat : Nat) : Int)) (by positivity)
  rw [asrResult, if_pos h, e]; push_cast; rfl

theorem asrResult_of_neg (a : Word) {sh : Int} (h : sh < 0) : asrResult a sh = Config.shiftNeg .asr a sh := by
  have h' : ¬0 ≤ sh := by omega
  simp [asrResult, h']

/-- A left shift is the library's shift of the pattern. -/
theorem lslResult_eq_shiftLeft (a : Word) {sh : Int} (h : 0 ≤ sh) : lslResult a sh = a <<< sh.toNat := by
  rw [lslResult_of_nonneg a h]
  apply BitVec.eq_of_toInt_eq
  rw [toInt_narrow, wrap32_eq_bmod, BitVec.toInt_shiftLeft, BitVec.toInt_eq_toNat_bmod, Nat.shiftLeft_eq]
  push_cast
  rw [Int.bmod_mul_bmod]

/-- A right shift is the library's arithmetic shift of the pattern. -/
theorem asrResult_eq_sshiftRight (a : Word) {sh : Int} (h : 0 ≤ sh) : asrResult a sh = a.sshiftRight sh.toNat := by
  rw [asrResult_of_nonneg a h, BitVec.sshiftRight_eq, Int.shiftRight_eq_div_pow]
  rfl

end Machine

end Sys2Proof
end

