-- ==== Sys2Proof/Laws/Decode.lean ====
section
/-! SUPPORT. The opcode table as a map both ways, the fields of a word as numbers, and the fields of a packed word. -/

namespace Sys2Proof

/-! ## Opcodes -/

theorem Mnemonic.mem_all (k : Mnemonic) : k ∈ Mnemonic.all := by cases k <;> decide

/-- What is found has the opcode looked for. -/
theorem OpcodeMap.code_of_mnemonicOf {m : OpcodeMap} {c : BitVec 6} {k : Mnemonic} (h : m.mnemonicOf c = some k) :
    m.code k = c := by
  simpa using List.find?_some h

/-- Nothing is found exactly where no mnemonic has the opcode. -/
theorem OpcodeMap.mnemonicOf_eq_none {m : OpcodeMap} {c : BitVec 6} : m.mnemonicOf c = none ↔ ∀ k, m.code k ≠ c := by
  simp [OpcodeMap.mnemonicOf, Mnemonic.mem_all]

/-- An injective map finds each mnemonic by its own opcode. -/
theorem OpcodeMap.mnemonicOf_code {m : OpcodeMap} (hm : m.Injective) (k : Mnemonic) : m.mnemonicOf (m.code k) = some k := by
  cases h : m.mnemonicOf (m.code k) with
  | none => exact absurd rfl (OpcodeMap.mnemonicOf_eq_none.1 h k)
  | some j => rw [hm j k (OpcodeMap.code_of_mnemonicOf h)]

theorem referenceOpcodes_injective : referenceOpcodes.Injective := by
  intro j k; cases j <;> cases k <;> decide

/-! ## Fields of a word as numbers -/

theorem opcodeField_toNat (w : Word) : (opcodeField w).toNat = w.toNat / 2 ^ 26 := by
  simp only [opcodeField, BitVec.extractLsb'_toNat, Nat.shiftRight_eq_div_pow]; omega

theorem rdField_val (w : Word) : (rdField w).val = w.toNat / 2 ^ 21 % 32 := by
  simp [rdField, Nat.shiftRight_eq_div_pow]

theorem raField_val (w : Word) : (raField w).val = w.toNat / 2 ^ 16 % 32 := by
  simp [raField, Nat.shiftRight_eq_div_pow]

theorem rbField_val (w : Word) : (rbField w).val = w.toNat / 2 ^ 11 % 32 := by
  simp [rbField, Nat.shiftRight_eq_div_pow]

/-- A field of `n` bits read with its sign. -/
theorem toInt_eq_signed {n : Nat} (x : BitVec n) (hn : 0 < n) : x.toInt = signed n x.toNat := by
  obtain ⟨k, rfl⟩ : ∃ k, n = k + 1 := ⟨n - 1, by omega⟩
  have h : (2 : Int) ^ (k + 1) = 2 * 2 ^ k := by ring
  have hc : (x.toNat : Int) < 2 ^ k ↔ 2 * x.toNat < 2 ^ (k + 1) := by
    zify; rw [h]; constructor <;> intro e <;> linarith
  simp only [BitVec.toInt_eq_toNat_cond, signed, Nat.add_sub_cancel, hc]
  push_cast
  rfl

theorem immField_eq (w : Word) : immField w = signed 16 (w.toNat % 2 ^ 16 : Nat) := by
  rw [immField, toInt_eq_signed _ (by decide)]; simp

theorem offField_eq (w : Word) : offField w = signed 26 (w.toNat % 2 ^ 26 : Nat) := by
  rw [offField, toInt_eq_signed _ (by decide)]; simp

theorem padField_none (w : Word) : padField .none w = w.toNat % 2 ^ 26 := by simp [padField]
theorem padField_r3 (w : Word) : padField .r3 w = w.toNat % 2 ^ 11 := by simp [padField]
theorem padField_mem (w : Word) : padField .mem w = w.toNat % 2 ^ 11 := by simp [padField]

/-! ## Packed words as numbers (30_encoding R52, R63) -/

theorem toNat_ofInt_eq_trunc (n : Nat) (v : Int) : ((BitVec.ofInt n v).toNat : Int) = trunc n v := by
  have h : (0 : Int) ≤ v % 2 ^ n := Int.emod_nonneg _ (by positivity)
  simp only [BitVec.toNat_ofInt, trunc]
  push_cast
  omega

/-- Appending is adding the low part to the high part moved up. -/
theorem toNat_append' {n k : Nat} (x : BitVec n) (y : BitVec k) : (x ++ y).toNat = x.toNat * 2 ^ k + y.toNat := by
  rw [BitVec.toNat_append, ← Nat.shiftLeft_add_eq_or_of_lt y.isLt, Nat.shiftLeft_eq]

theorem packNone_toNat (op : BitVec 6) : (packNone op).toNat = op.toNat * 2 ^ 26 := by
  have e : (packNone op).toNat = (op ++ (0 : BitVec 26)).toNat := rfl
  rw [e, toNat_append']
  simp only [BitVec.ofNat_eq_ofNat, BitVec.toNat_ofNat, Nat.zero_mod, Nat.add_zero]

theorem packR3_toNat (op : BitVec 6) (d a b : Int) :
    ((packR3 op d a b).toNat : Int) =
      op.toNat * 2 ^ 26 + trunc 5 d * 2 ^ 21 + trunc 5 a * 2 ^ 16 + trunc 5 b * 2 ^ 11 := by
  have e : (packR3 op d a b).toNat =
    (op ++ BitVec.ofInt 5 d ++ BitVec.ofInt 5 a ++ BitVec.ofInt 5 b ++ (0 : BitVec 11)).toNat := rfl
  rw [e]
  simp only [toNat_append', ← toNat_ofInt_eq_trunc, BitVec.ofNat_eq_ofNat, BitVec.toNat_ofNat, Nat.zero_mod]
  push_cast
  ring

theorem packRI_toNat (op : BitVec 6) (d a v : Int) :
    ((packRI op d a v).toNat : Int) = op.toNat * 2 ^ 26 + trunc 5 d * 2 ^ 21 + trunc 5 a * 2 ^ 16 + trunc 16 v := by
  have e : (packRI op d a v).toNat = (op ++ BitVec.ofInt 5 d ++ BitVec.ofInt 5 a ++ BitVec.ofInt 16 v).toNat := rfl
  rw [e]
  simp only [toNat_append', ← toNat_ofInt_eq_trunc]
  push_cast
  ring

theorem packOff_toNat (op : BitVec 6) (v : Int) :
    ((packOff op v).toNat : Int) = op.toNat * 2 ^ 26 + trunc 26 v := by
  have e : (packOff op v).toNat = (op ++ BitVec.ofInt 26 v).toNat := rfl
  rw [e]
  simp only [toNat_append', ← toNat_ofInt_eq_trunc]
  push_cast
  ring

/-- `trunc_n(v)` lies in `[0, 2^n)`. -/
theorem trunc_bounds (n : Nat) (v : Int) : 0 ≤ trunc n v ∧ trunc n v < 2 ^ n :=
  ⟨Int.emod_nonneg _ (by positivity), Int.emod_lt_of_pos _ (by positivity)⟩

/-! ## What decoding a word comes to -/

/-- A word decodes to the operands of the mnemonic its opcode names, unless its padding is turned down. -/
theorem decodeWith_ok_iff (P : Params) (w : Word) (i : Instr) :
    decodeWith P w = .ok i ↔
      ∃ k, P.opcodes.mnemonicOf (opcodeField w) = some k ∧ padRejects P.pad k w = false ∧ i = operandsOf k w := by
  unfold decodeWith
  cases h : P.opcodes.mnemonicOf (opcodeField w) with
  | none => simp
  | some k =>
    by_cases hp : padRejects P.pad k w = true
    · simp [hp]
    · simpa [hp] using eq_comm

/-- A word decodes or is rejected. -/
theorem decodeWith_total (P : Params) (w : Word) :
    (∃ i, decodeWith P w = .ok i) ∨ ∃ e, decodeWith P w = .error e := by
  cases h : decodeWith P w with
  | ok i => exact .inl ⟨i, rfl⟩
  | error e => exact .inr ⟨e, rfl⟩

end Sys2Proof
end

