-- ==== Sys2Proof/Laws/Exec.lean ====
section
/-! SUPPORT. The next state of each instruction, the cases of a cycle, and the one induction over runs. -/

namespace Sys2Proof.Machine

/-! ## One equation per instruction -/

variable (s : State) (rd ra rb : Reg) (v : Int)

theorem exec_nop : exec .nop s = .next (s.advance 0) := rfl

theorem exec_add : exec (.add rd ra rb) s = .next (s.aluEnd rd (narrow ((s.reg ra).toInt + (s.reg rb).toInt))
    (some (vAdd (s.reg ra) (s.reg rb) (narrow ((s.reg ra).toInt + (s.reg rb).toInt))))) := rfl

theorem exec_sub : exec (.sub rd ra rb) s = .next (s.aluEnd rd (narrow ((s.reg ra).toInt - (s.reg rb).toInt))
    (some (Config.vSub (s.reg ra) (s.reg rb) (narrow ((s.reg ra).toInt - (s.reg rb).toInt))))) := rfl

theorem exec_and : exec (.and rd ra rb) s = .next (s.aluEnd rd (s.reg ra &&& s.reg rb) none) := rfl

theorem exec_orri : exec (.orri rd ra v) s = .next (s.aluEnd rd (s.reg ra ||| immWord v) none) := rfl

theorem exec_lsl : exec (.lsl rd ra v) s = .next (s.aluEnd rd (lslResult (s.reg ra) v) none) := rfl

theorem exec_asr : exec (.asr rd ra v) s = .next (s.aluEnd rd (asrResult (s.reg ra) v)
    (some (Config.vAsr (s.reg ra) v (asrResult (s.reg ra) v)))) := rfl

theorem exec_b : exec (.b v) s = .next (s.advance v) := rfl

theorem exec_beq : exec (.beq v) s = .next (s.advance (branchDelta s.flags.z v)) := rfl

theorem exec_blt : exec (.blt v) s = .next (s.advance (branchDelta (s.flags.n != s.flags.v) v)) := rfl

theorem exec_ldr : exec (.ldr rd ra rb) s = .next ((s.setReg rd (s.memRead (s.ea ra rb))).advance 0) := rfl

theorem exec_str : exec (.str rd ra rb) s = .next ((s.memWrite (s.ea ra rb) (s.reg rd)).advance 0) := rfl

/-! ## Fetch and cycle -/

/-- A fetch answers within the program alone. -/
theorem fetch_eq_some_iff (s : State) (w : Word) :
    s.fetch = some w ↔ 0 ≤ s.pc ∧ s.imem[s.pc.toNat]? = some w := by
  simp [State.fetch]

/-- A fetched word is a word of the program. -/
theorem mem_imem_of_fetch {s : State} {w : Word} (h : s.fetch = some w) : w ∈ s.imem :=
  List.mem_of_getElem? ((fetch_eq_some_iff s w).1 h).2

/-- Where a fetch answers, the pc is in bounds. -/
theorem pc_of_fetch {s : State} {w : Word} (h : s.fetch = some w) : 0 ≤ s.pc ∧ s.pc < s.imem.length := by
  obtain ⟨h0, h1⟩ := (fetch_eq_some_iff s w).1 h
  obtain ⟨h2, -⟩ := List.getElem?_eq_some_iff.1 h1
  exact ⟨h0, by omega⟩

/-- A cycle that goes on either leaves a halted engine as it is, or runs the decoded instruction. -/
theorem cycle_next_cases {P : Params} {s t : State} (h : cycle P s = .next t) :
    (s.fetch = none ∧ t = s) ∨ ∃ w i, s.fetch = some w ∧ decodeWith P w = .ok i ∧ exec i s = .next t := by
  unfold cycle at h
  cases hf : s.fetch with
  | none => simp only [hf] at h; exact .inl ⟨rfl, by cases h; rfl⟩
  | some w =>
    cases hd : decodeWith P w with
    | error e => simp only [hf, hd] at h; cases h
    | ok i => simp only [hf, hd] at h; exact .inr ⟨w, i, rfl, hd, h⟩

/-! ## Runs -/

/-- A run of one more cycle, by what its first cycle answers. -/
theorem run_succ_of_next {P : Params} {s u : State} (h : cycle P s = .next u) (k : Nat) :
    run P (k + 1) s = run P k u := by
  rw [run, h]

theorem run_succ_of_fault {P : Params} {s : State} {f : Fault} (h : cycle P s = .fault f) (k : Nat) :
    run P (k + 1) s = .fault f := by
  rw [run, h]

theorem run_succ_of_refused {P : Params} {s : State} {r : Refusal} (h : cycle P s = .refused r) (k : Nat) :
    run P (k + 1) s = .refused r := by
  rw [run, h]

/-- One more step of a host machine, by what its first step answers. -/
theorem hostRun_succ_of_next (M : Host.Core) {s u : M.State} (h : M.step s = .next u) (k : Nat) :
    M.run (k + 1) s = M.run k u := by rw [Host.Core.run, h]

theorem hostRun_succ_of_fault (M : Host.Core) {s : M.State} {f : M.Fault} (h : M.step s = .fault f) (k : Nat) :
    M.run (k + 1) s = .fault f := by rw [Host.Core.run, h]

theorem hostRun_succ_of_refused (M : Host.Core) {s : M.State} {r : M.Refusal} (h : M.step s = .refused r) (k : Nat) :
    M.run (k + 1) s = .refused r := by rw [Host.Core.run, h]

/-- The host's run of `core` is the run under the reference parameters. -/
theorem core_run_eq (k : Nat) (s : State) : Sys2Proof.core.run k s = run referenceParams k s := by
  induction k generalizing s with
  | zero => rfl
  | succ k ih =>
    cases h : cycle referenceParams s with
    | next u => exact (hostRun_succ_of_next core h k).trans ((ih u).trans (run_succ_of_next h k).symm)
    | fault f => exact (hostRun_succ_of_fault core h k).trans (run_succ_of_fault h k).symm
    | refused r => exact (hostRun_succ_of_refused core h k).trans (run_succ_of_refused h k).symm

/-- A property that every cycle keeps holds after any number of them. -/
theorem run_keeps {P : Params} {I : State → Prop} (hI : ∀ s t, I s → cycle P s = .next t → I t)
    (k : Nat) {s t : State} (hs : I s) (h : run P k s = .next t) : I t := by
  induction k generalizing s with
  | zero => cases h; exact hs
  | succ k ih =>
    cases hc : cycle P s with
    | next u => rw [run_succ_of_next hc] at h; exact ih (hI s u hs hc) h
    | fault f => rw [run_succ_of_fault hc] at h; cases h
    | refused r => rw [run_succ_of_refused hc] at h; cases h

/-- A run goes on for ever where a property gives a cycle and the cycle keeps the property. -/
theorem run_total {P : Params} {I : State → Prop} (hI : ∀ s, I s → ∃ t, cycle P s = .next t ∧ I t)
    (k : Nat) {s : State} (hs : I s) : ∃ t, run P k s = .next t ∧ I t := by
  induction k generalizing s with
  | zero => exact ⟨s, rfl, hs⟩
  | succ k ih =>
    obtain ⟨u, hu, hIu⟩ := hI s hs
    rw [run_succ_of_next hu]
    exact ih hIu

end Sys2Proof.Machine
end

