-- ==== Sys2Proof/Laws/PerInstr.lean ====
section
/-! SUPPORT. The family OperandList, one lemma per constructor: encoding an instruction and encoding its mnemonic and
operand list give the same word (30_encoding R52), under every opcode map. -/

namespace Sys2Proof.Laws.OperandList

/-- The operand list of an instruction has its format's length and encodes to its word. -/
def Statement (i : Instr) : Prop :=
  ∀ m : OpcodeMap, encodeOperands m i.mnemonic i.operands = some (encodeWith m i)

theorem nop : Statement .nop := fun _ => rfl
theorem add (rd ra rb : Reg) : Statement (.add rd ra rb) := fun _ => rfl
theorem sub (rd ra rb : Reg) : Statement (.sub rd ra rb) := fun _ => rfl
theorem and (rd ra rb : Reg) : Statement (.and rd ra rb) := fun _ => rfl
theorem orri (rd ra : Reg) (imm : Int) : Statement (.orri rd ra imm) := fun _ => rfl
theorem lsl (rd ra : Reg) (imm : Int) : Statement (.lsl rd ra imm) := fun _ => rfl
theorem asr (rd ra : Reg) (imm : Int) : Statement (.asr rd ra imm) := fun _ => rfl
theorem b (offset : Int) : Statement (.b offset) := fun _ => rfl
theorem beq (offset : Int) : Statement (.beq offset) := fun _ => rfl
theorem blt (offset : Int) : Statement (.blt offset) := fun _ => rfl
theorem ldr (rd ra rb : Reg) : Statement (.ldr rd ra rb) := fun _ => rfl
theorem str (rd ra rb : Reg) : Statement (.str rd ra rb) := fun _ => rfl

end Sys2Proof.Laws.OperandList
end

