-- ==== Sys2Proof/Tests/Slice0.lean ====
section
/-! SUPPORT. Tests and witnesses. Expected results come from spec/95_test_vectors.md and the worked examples of the rules,
not from the model. -/

namespace Sys2Proof.Tests

open Sys2Proof.Machine Sys2Proof.Rules

/-! ## WellFormed refuses what it should -/

theorem test_wf_orri_above : (Instr.orri 0 0 32768).wellFormed = false := by decide
theorem test_wf_orri_below : (Instr.orri 0 0 (-32769)).wellFormed = false := by decide
theorem test_wf_lsl_above : (Instr.lsl 0 0 65535).wellFormed = false := by decide
theorem test_wf_asr_below : (Instr.asr 0 0 (-32769)).wellFormed = false := by decide
theorem test_wf_b_above : (Instr.b 33554432).wellFormed = false := by decide
theorem test_wf_beq_below : (Instr.beq (-33554433)).wellFormed = false := by decide
theorem test_wf_blt_above : (Instr.blt 33554432).wellFormed = false := by decide
theorem test_wf_bounds : (Instr.orri 0 0 32767).wellFormed = true ∧ (Instr.lsl 0 0 (-32768)).wellFormed = true ∧
    (Instr.b 33554431).wellFormed = true ∧ (Instr.blt (-33554432)).wellFormed = true := by decide

/-! ## Decoding: words written out from 30_encoding R54 to R58 with the opcodes of R59 -/

theorem test_decode_nop : decode 0b000000_00000000000000000000000000 = .ok .nop := by decide
theorem test_decode_add : decode 0b000001_00001_00010_00011_00000000000 = .ok (.add 1 2 3) := by decide
theorem test_decode_sub : decode 0b000010_00010_00001_00000_00000000000 = .ok (.sub 2 1 0) := by decide
theorem test_decode_and : decode 0b000011_01000_00110_00111_00000000000 = .ok (.and 8 6 7) := by decide
theorem test_decode_orri : decode 0b000100_00001_00000_1111111111111111 = .ok (.orri 1 0 (-1)) := by decide
theorem test_decode_lsl : decode 0b000101_00101_00101_0000000000010000 = .ok (.lsl 5 5 16) := by decide
theorem test_decode_asr : decode 0b000110_00111_00110_0000000000001000 = .ok (.asr 7 6 8) := by decide
theorem test_decode_b : decode 0b000111_11111111111111111111111100 = .ok (.b (-4)) := by decide
theorem test_decode_beq : decode 0b001000_00000000000000000000000001 = .ok (.beq 1) := by decide
theorem test_decode_blt : decode 0b001001_11111111111111111111111101 = .ok (.blt (-3)) := by decide
theorem test_decode_ldr : decode 0b001010_00011_00001_00010_00000000000 = .ok (.ldr 3 1 2) := by decide
theorem test_decode_str : decode 0b001011_11111_11110_11101_00000000000 = .ok (.str 31 30 29) := by decide

/-- 95_test_vectors section 2.1: the words it calls invalid. -/
theorem test_decode_invalid : decode 0x04221801 = .error (.nonZeroPadding .add) ∧ decode 0x00000001 = .error (.nonZeroPadding .nop) ∧
    decode 0x30000000 = .error (.unassignedOpcode 12) ∧ decode 0xFFFFFFFF = .error (.unassignedOpcode 63) := by decide

/-- The same under `PAD_POLICY = ignore`. -/
theorem test_decode_ignore : decodeWith { referenceParams with pad := .ignore } 0x04221801 = .ok (.add 1 2 3) ∧
    decodeWith { referenceParams with pad := .ignore } 0x00000001 = .ok .nop := by decide

/-- 95_test_vectors section 2.1: encoding, and truncation (R63). -/
theorem test_encode_words : encode (.str 0 1 2) = 0x2C011000 ∧ encode (.b 33554431) = 0x1DFFFFFF ∧
    encode (.b (-33554432)) = 0x1E000000 ∧ encode (.orri 1 0 (-32768)) = 0x10208000 := by decide
theorem test_encode_truncates : encodeOperands referenceOpcodes .orri [1, 0, 65541] = some 0x10200005 ∧
    encodeOperands referenceOpcodes .add [33, 0, 0] = some 0x04200000 ∧
    encodeOperands referenceOpcodes .b [33554432] = some 0x1E000000 := by decide

/-! ## One step of each instruction -/

/-- A state with a few registers set and the rest as at reset. -/
def withRegs : List (Reg × Word) → State
  | [] => State.reset
  | (k, v) :: rest => (withRegs rest).setReg k v

/-- A state with a pc and flags N, Z, V. -/
def withFlags (pc : Int) (n z v : Bool) : State := { State.reset with pc := pc, flags := { n := n, z := z, c := false, v := v } }

/-- What a next state shows of one register and of the flags. -/
def seen (k : Reg) : Host.Outcome State Fault Refusal → Option (Word × Flags)
  | .next t => some (t.reg k, t.flags)
  | _ => none

/-- One register and N, Z of a next state: V is a free value of the instruction. -/
def seenNZ (k : Reg) : Host.Outcome State Fault Refusal → Option (Word × Bool × Bool)
  | .next t => some (t.reg k, t.flags.n, t.flags.z)
  | _ => none

/-- The pc of a next state. -/
def pcOf : Host.Outcome State Fault Refusal → Option Int
  | .next t => some t.pc
  | _ => none

/-- R87's worked example. -/
theorem test_nop : pcOf (exec .nop (withFlags 2 true true true)) = some 3 := by decide

/-- 95_test_vectors 2.2: positive overflow reported, and negative overflow not. -/
theorem test_add_overflow : seen 3 (exec (.add 3 1 2) (withRegs [(1, 0x7FFFFFFF), (2, 1)])) =
    some (0x80000000, { n := true, z := false, c := false, v := true }) := by decide
theorem test_add_negatives : seen 1 (exec (.add 1 1 2) (withRegs [(1, 0x80000000), (2, 0xFFFFFFFF)])) =
    some (0x7FFFFFFF, { n := false, z := false, c := false, v := false }) := by decide

/-- 95_test_vectors 2.3: 3 - 5, and 0 - (-2^31). -/
theorem test_sub_order : seenNZ 2 (exec (.sub 2 1 2) (withRegs [(1, 3), (2, 5)])) = some (0xFFFFFFFE, true, false) := by decide
theorem test_sub_wraps : seenNZ 3 (exec (.sub 3 1 2) (withRegs [(2, 0x80000000)])) = some (0x80000000, true, false) := by decide

/-- 95_test_vectors 2.4, with its stale V. -/
theorem test_and : seen 8 (exec (.and 8 6 7) { withRegs [(6, 0x11223344), (7, 0x00112233)] with flags := { n := true, z := true, c := false, v := true } }) =
    some (0x00002200, { n := false, z := false, c := false, v := true }) := by decide

/-- 95_test_vectors 2.5: the sign extension of the immediate. -/
theorem test_orri_sign : seenNZ 1 (exec (.orri 1 1 (-32768)) (withRegs [(1, 0x12345678)])) = some (0xFFFFD678, true, false) := by decide
theorem test_orri_low : seenNZ 5 (exec (.orri 5 5 13124) (withRegs [(5, 0x11220000)])) = some (0x11223344, false, false) := by decide

/-- 95_test_vectors 2.6: bits lost at the top, and the amount equal to the width. -/
theorem test_lsl_lost : seenNZ 1 (exec (.lsl 1 1 2) (withRegs [(1, 0x40000001)])) = some (0x00000004, false, false) := by decide
theorem test_lsl_width : seenNZ 1 (exec (.lsl 1 2 32) (withRegs [(2, 1)])) = some (0, false, true) := by decide

/-- 95_test_vectors 2.7: rounding down, and an amount above the width. -/
theorem test_asr_floor : seenNZ 1 (exec (.asr 1 1 1) (withRegs [(1, 0xFFFFFFFB)])) = some (0xFFFFFFFD, true, false) := by decide
theorem test_asr_wide : seenNZ 1 (exec (.asr 1 2 100) (withRegs [(2, 0xFFFFFFFF)])) = some (0xFFFFFFFF, true, false) := by decide

/-- 95_test_vectors 2.8. -/
theorem test_b : pcOf (exec (.b (-6)) (withFlags 4 false false false)) = some (-1) ∧
    pcOf (exec (.b (-4)) (withFlags 5 true true true)) = some 2 := by decide
theorem test_beq : pcOf (exec (.beq 2) (withFlags 3 false true false)) = some 6 ∧
    pcOf (exec (.beq 2) (withFlags 3 true false true)) = some 4 := by decide
theorem test_blt : pcOf (exec (.blt 2) (withFlags 3 true false false)) = some 6 ∧ pcOf (exec (.blt 2) (withFlags 3 false false true)) = some 6 ∧
    pcOf (exec (.blt 2) (withFlags 3 true false true)) = some 4 ∧ pcOf (exec (.blt 2) (withFlags 3 false true false)) = some 4 := by decide

/-- 95_test_vectors 2.9: the store across the top of the space, and the loads of the table. -/
theorem test_str_wraps : (match exec (.str 3 1 2) (withRegs [(1, 0xFFFFFFFC), (2, 2), (3, 0xAABBCCDD)]) with
    | .next t => some (t.mem, t.written) | _ => none) =
    some ([(0, 0xCC), (1, 0xDD), (0xFFFFFFFE, 0xAA), (0xFFFFFFFF, 0xBB)], [0, 1, 0xFFFFFFFE, 0xFFFFFFFF]) := by decide
theorem test_str_zero_byte : (match exec (.str 3 1 2) (withRegs [(3, 0x80000001)]) with
    | .next t => some (t.mem, t.written) | _ => none) = some ([(0, 0x80), (3, 0x01)], [0, 1, 2, 3]) := by decide
theorem test_ldr_misaligned : seen 3 (exec (.ldr 3 1 2) { withRegs [(1, 1)] with mem := [(0, 0x11), (1, 0x22), (2, 0x33), (3, 0x44)] }) =
    some (0x22334400, { n := false, z := false, c := false, v := false }) := by decide
theorem test_ldr_wraps : seen 1 (exec (.ldr 1 1 2) { withRegs [(1, 0xFFFFFFFF)] with mem := [(0, 0x11), (1, 0x22), (2, 0x33), (3, 0x44)] }) =
    some (0x00112233, { n := false, z := false, c := false, v := false }) := by decide

/-! ## The cycle, the fixed names, the assembler -/

/-- 95_test_vectors P7 (b), (c): the INVALID stop, and the empty program. -/
theorem test_step_invalid : step (State.loaded [0x30000000]) = .fault (.invalidStop 0 0x30000000) := rfl
theorem test_status : (State.loaded [0x30000000]).status referenceParams = .invalid ∧ (State.loaded [0]).status referenceParams = .running ∧
    State.reset.status referenceParams = .halted := by decide

/-- The first instruction after reset is the one placed, also where the pc stands past the program. -/
theorem test_withFetchWord : seenNZ 1 (step (State.reset.withFetchWord 32 0x1020FFFF)) = some (0xFFFFFFFF, true, false) ∧
    seenNZ 1 (step ({ State.reset with pc := 2 }.withFetchWord 32 0x1020FFFF)) = some (0xFFFFFFFF, true, false) := by decide
theorem test_decodeTableWord : decodeTableWord 32 0x2FFEE800 = some (.str 31 30 29) ∧ decodeTableWord 32 0x30000000 = none := by decide

/-- 95_test_vectors 2.1 and S7: text to words, in any case and spacing; R74's two errors. -/
theorem test_assemble : Asm.assemble referenceOpcodes
    [['a', 'd', 'd', ' ', 'r', '1', ',', ' ', 'r', '2', ',', ' ', 'r', '3'], ['O', 'R', 'R', 'I', ' ', 'R', '1', ',', 'R', '0', ',', '#', '-', '1']] =
    .ok [0x04221800, 0x1020FFFF] := by decide
theorem test_assemble_errors : Asm.parseLine ['B', 'L', 'T', ' ', '1'] = .error .unknownMnemonic ∧
    Asm.parseLine ['N', 'O', 'P', ' ', '1'] = .error .malformedOperands ∧
    Asm.parseLine ['A', 'D', 'D', ' ', 'R', '1', ',', 'R', '2'] = .error .malformedOperands := by decide

/-! ## Witnesses: each statement's hypotheses are met together -/

/-- A state that runs one word. -/
def one (w : Word) : State := State.loaded [w]

theorem witness_ResetValues : (∃ program : List Word, program ≠ [] ∧ ∃ s, s = State.loaded program) ∧
    (∃ u : State, u.imem = [0] ∧ u.pc ≠ 0 ∧ ∃ s, s = u.resetEvent) ∧ (∃ program : List Word, program = [] ∧ ∃ s, s = State.reset) :=
  ⟨⟨[0], by decide, _, rfl⟩, ⟨{ one 0 with pc := 7 }, rfl, by decide, _, rfl⟩, ⟨[], rfl, _, rfl⟩⟩

theorem witness_EntryPoint : ({ State.reset with pc := 5 } : State).imem = [] := rfl

theorem witness_RunStateIsPcInBounds : (one 0).running = true ∧ ({ one 0 with pc := 1 }).running = false := by decide

theorem witness_HaltedIsAbsorbingAndItsWays : ({ one 0 with pc := 1 }).halted = true ∧ ({ one 0 with pc := -1 }).halted = true ∧
    (one 0).running = true ∧ ∃ t, cycle referenceParams (one 0) = .next t := ⟨by decide, by decide, by decide, _, rfl⟩

theorem witness_StepRunsTheDecodedInstruction : State.reset.fetch = none ∧ ((one 0).fetch = some 0 ∧ decode 0 = .ok .nop) ∧
    ((one 1).fetch = some 1 ∧ decodeWith referenceParams 1 = .error (.nonZeroPadding .nop)) := by decide

theorem witness_SelfBranchRunsForEver : (one 0x1FFFFFFF).fetch = some 0x1FFFFFFF ∧
    decodeWith referenceParams 0x1FFFFFFF = .ok (.b (-1)) := by decide

theorem witness_NopOnlyAdvances : referenceParams.opcodes.Injective ∧
    (0x00000000 : Word).toNat = (referenceParams.opcodes.code .nop).toNat * 2 ^ 26 := ⟨referenceOpcodes_injective, by decide⟩

theorem witness_AddResultFlagsFrame : referenceParams.opcodes.Injective ∧ (0x07FFF800 : Word).toNat =
    (referenceParams.opcodes.code .add).toNat * 2 ^ 26 + (31 : Reg).val * 2 ^ 21 + (31 : Reg).val * 2 ^ 16 + (31 : Reg).val * 2 ^ 11 :=
  ⟨referenceOpcodes_injective, by decide⟩

theorem witness_SubResultFlagsFrame : referenceParams.opcodes.Injective ∧ (0x08410000 : Word).toNat =
    (referenceParams.opcodes.code .sub).toNat * 2 ^ 26 + (2 : Reg).val * 2 ^ 21 + (1 : Reg).val * 2 ^ 16 + (0 : Reg).val * 2 ^ 11 :=
  ⟨referenceOpcodes_injective, by decide⟩

theorem witness_AndResultFlagsFrame : referenceParams.opcodes.Injective ∧ (0x0D063800 : Word).toNat =
    (referenceParams.opcodes.code .and).toNat * 2 ^ 26 + (8 : Reg).val * 2 ^ 21 + (6 : Reg).val * 2 ^ 16 + (7 : Reg).val * 2 ^ 11 :=
  ⟨referenceOpcodes_injective, by decide⟩

/-- The largest and the smallest immediate. -/
theorem witness_OrriResultFlagsFrame : referenceParams.opcodes.Injective ∧
    (-32768 ≤ (32767 : Int) ∧ (32767 : Int) ≤ 32767 ∧ ((0x10207FFF : Word).toNat : Int) =
      (referenceParams.opcodes.code .orri).toNat * 2 ^ 26 + (1 : Reg).val * 2 ^ 21 + (0 : Reg).val * 2 ^ 16 + trunc 16 32767) ∧
    (-32768 ≤ (-32768 : Int) ∧ (-32768 : Int) ≤ 32767 ∧ ((0x10208000 : Word).toNat : Int) =
      (referenceParams.opcodes.code .orri).toNat * 2 ^ 26 + (1 : Reg).val * 2 ^ 21 + (0 : Reg).val * 2 ^ 16 + trunc 16 (-32768)) ∧
    15 ≤ (15 : Nat) := ⟨referenceOpcodes_injective, by decide, by decide, by decide⟩

theorem witness_LslResultFlagsFrame : referenceParams.opcodes.Injective ∧
    (-32768 ≤ (-32768 : Int) ∧ (-32768 : Int) ≤ 32767 ∧ ((0x14A58000 : Word).toNat : Int) =
      (referenceParams.opcodes.code .lsl).toNat * 2 ^ 26 + (5 : Reg).val * 2 ^ 21 + (5 : Reg).val * 2 ^ 16 + trunc 16 (-32768)) ∧
    0 ≤ (0 : Int) ∧ (-1 : Int) < 0 := ⟨referenceOpcodes_injective, by decide, by decide, by decide⟩

theorem witness_AsrResultFlagsFrame : referenceParams.opcodes.Injective ∧
    (-32768 ≤ (8 : Int) ∧ (8 : Int) ≤ 32767 ∧ ((0x18E60008 : Word).toNat : Int) =
      (referenceParams.opcodes.code .asr).toNat * 2 ^ 26 + (7 : Reg).val * 2 ^ 21 + (6 : Reg).val * 2 ^ 16 + trunc 16 8) ∧
    0 ≤ (0 : Int) ∧ (-1 : Int) < 0 := ⟨referenceOpcodes_injective, by decide, by decide, by decide⟩

/-- The smallest offset, and the largest. -/
theorem witness_BranchAlwaysTaken : referenceParams.opcodes.Injective ∧
    ((0x1E000000 : Word).toNat : Int) = (referenceParams.opcodes.code .b).toNat * 2 ^ 26 + trunc 26 (-33554432) ∧
    ((0x1DFFFFFF : Word).toNat : Int) = (referenceParams.opcodes.code .b).toNat * 2 ^ 26 + trunc 26 33554431 :=
  ⟨referenceOpcodes_injective, by decide, by decide⟩

theorem witness_BranchIfZ : referenceParams.opcodes.Injective ∧
    ((0x20000001 : Word).toNat : Int) = (referenceParams.opcodes.code .beq).toNat * 2 ^ 26 + trunc 26 1 ∧
    (withFlags 0 false true false).flags.z = true ∧ State.reset.flags.z = false :=
  ⟨referenceOpcodes_injective, by decide, by decide, by decide⟩

theorem witness_BranchIfNDiffersFromV : referenceParams.opcodes.Injective ∧
    ((0x27FFFFFD : Word).toNat : Int) = (referenceParams.opcodes.code .blt).toNat * 2 ^ 26 + trunc 26 (-3) ∧
    (withFlags 0 true false false).flags.n ≠ (withFlags 0 true false false).flags.v ∧
    (withFlags 0 true false true).flags.n = (withFlags 0 true false true).flags.v :=
  ⟨referenceOpcodes_injective, by decide, by decide, by decide⟩

theorem witness_LdrResultFrame : referenceParams.opcodes.Injective ∧ (0x28611000 : Word).toNat =
    (referenceParams.opcodes.code .ldr).toNat * 2 ^ 26 + (3 : Reg).val * 2 ^ 21 + (1 : Reg).val * 2 ^ 16 + (2 : Reg).val * 2 ^ 11 :=
  ⟨referenceOpcodes_injective, by decide⟩

theorem witness_StrStoresFrame : referenceParams.opcodes.Injective ∧ (0x2FFEE800 : Word).toNat =
    (referenceParams.opcodes.code .str).toNat * 2 ^ 26 + (31 : Reg).val * 2 ^ 21 + (30 : Reg).val * 2 ^ 16 + (29 : Reg).val * 2 ^ 11 ∧
    4 ∉ wordAddrs 0 := ⟨referenceOpcodes_injective, by decide, by decide⟩

theorem witness_NZAgreeWithTheResult : writesNZ (.add 3 1 2) = some 3 ∧ writesNZ (.asr 7 6 8) = some 7 := by decide

theorem witness_FlagWritersAndReaders : writesNZ (.ldr 1 2 3) = none ∧ writesV (.lsl 1 2 3) = false ∧
    (∀ o, Instr.add 3 1 2 ≠ .beq o) ∧ (∀ o, Instr.add 3 1 2 ≠ .blt o) ∧
    (withFlags 0 true true true).flags.z = (withFlags 0 false true false).flags.z ∧
    (withFlags 0 true true true).flags.n = (withFlags 0 true false true).flags.n ∧
    (withFlags 0 true true true).flags.v = (withFlags 0 true false true).flags.v :=
  ⟨by decide, by decide, fun _ h => (nomatch h), fun _ h => (nomatch h), by decide, by decide, by decide⟩

theorem witness_CarryIsConstantZero : (one 0).flags.c = false ∧ ∃ t, run referenceParams 1 (one 0) = .next t := ⟨rfl, _, rfl⟩

/-- A positive overflow, two negatives without one, and two negatives whose sum is below the range. -/
theorem witness_AddOverflowMissesTwoNegatives :
    (0 ≤ ((withRegs [(1, 0x7FFFFFFF), (2, 1)]).reg 1).toInt) ∧
    (((withRegs [(1, 0xFFFFFFFF), (2, 0xFFFFFFFF)]).reg 1).toInt < 0 ∧ ((withRegs [(1, 0xFFFFFFFF), (2, 0xFFFFFFFF)]).reg 2).toInt < 0) ∧
    (((withRegs [(1, 0x80000000), (2, 0xFFFFFFFF)]).reg 1).toInt + ((withRegs [(1, 0x80000000), (2, 0xFFFFFFFF)]).reg 2).toInt < -2 ^ 31) := by decide

theorem witness_LslMovesBits : 0 ≤ (0 : Int) ∧ 0 ≤ (32 : Int) ∧ 32 ≤ (32 : Int) := by decide
theorem witness_AsrCopiesTheSign : 0 ≤ (0 : Int) ∧ 0 ≤ (31 : Int) ∧ 31 ≤ (31 : Int) := by decide

theorem witness_RegisterReadersAndWriters : destination (.add 1 2 3) ≠ some 0 ∧ (1 : Reg) ∉ sources (.add 1 2 3) ∧
    (0 : Reg) ∉ sources (.str 1 2 3) := by decide

theorem witness_WordAccessIsBigEndian : 4 ∉ wordAddrs 0 ∧ 1 ∉ wordAddrs 0xFFFFFFFD ∧ 0xFFFFFFFC ∉ wordAddrs 0xFFFFFFFD := by decide

theorem witness_OnlyStoresChangeMemory : storesTo State.reset (.ldr 1 2 3) = none ∧ storesTo State.reset (.str 1 2 3) = some 0 ∧
    4 ∉ wordAddrs 0 := by decide

theorem witness_InstructionMemoryIsImmutable : ∃ t, run referenceParams 2 (one 0) = .next t := ⟨_, rfl⟩

/-- A state away from reset that meets the invariant, and its step. -/
theorem witness_EveryStepKeepsTheInvariant :
    ({ State.reset with pc := 3, mem := [(5, 7)], written := [4, 5] } : State).Inv ∧
    ∃ t, cycle referenceParams { State.reset with pc := 3, mem := [(5, 7)], written := [4, 5] } = .next t := by
  refine ⟨⟨by decide, by decide, fun a ha => ?_, rfl⟩, _, rfl⟩
  simp only [List.mem_cons, List.not_mem_nil, or_false, not_or] at ha
  simp [State.byte, Memory.read, Memory.unlisted, ha.2]

theorem witness_EveryStepKeepsThePcInRange : (one 0).PcInRange ∧ (one 0).running = true ∧ ∃ t, cycle referenceParams (one 0) = .next t :=
  ⟨by simp [State.PcInRange, one, State.loaded, State.reset], by decide, _, rfl⟩

theorem witness_ReachableStatesMeetTheInvariant : ∃ t, run referenceParams 1 (State.loaded [0x2C011000]) = .next t := ⟨_, rfl⟩

theorem witness_DecodeAfterEncode : referenceParams.opcodes.Injective ∧ (Instr.lsl 31 0 (-32768)).wellFormed = true ∧
    (Instr.b 33554431).wellFormed = true := ⟨referenceOpcodes_injective, by decide, by decide⟩

theorem witness_EncodeAfterDecode : decodeWith { opcodes := referenceOpcodes, pad := .invalid } 0x1020FFFF = .ok (.orri 1 0 (-1)) := by decide

theorem witness_InvalidWordsExactly : referenceParams.opcodes.Injective ∧
    (∃ e, decodeWith referenceParams 0x30000000 = .error e) ∧ ∃ e, decodeWith referenceParams 0x04221801 = .error e :=
  ⟨referenceOpcodes_injective, ⟨_, rfl⟩, ⟨_, rfl⟩⟩

theorem witness_IgnoringPadding : referenceOpcodes.Injective ∧
    decodeWith { opcodes := referenceOpcodes, pad := .invalid } 0x04221800 = .ok (.add 1 2 3) ∧
    (referenceOpcodes.code .nop).toNat = (0x00000001 : Word).toNat / 2 ^ 26 ∧
    (referenceOpcodes.code .add).toNat = (0x04221801 : Word).toNat / 2 ^ 26 ∧
    (0x04221801 : Word).toNat / 2 ^ 11 = (0x04221FFF : Word).toNat / 2 ^ 11 :=
  ⟨referenceOpcodes_injective, by decide, by decide, by decide, by decide⟩

theorem witness_FiftyTwoOpcodesUnassigned : referenceOpcodes.Injective := referenceOpcodes_injective

theorem witness_EncoderTruncates : Mnemonic.ldr ∈ [Mnemonic.add, .sub, .and, .ldr, .str] ∧ Mnemonic.asr ∈ [Mnemonic.orri, .lsl, .asr] ∧
    Mnemonic.blt ∈ [Mnemonic.b, .beq, .blt] ∧ referenceParams.opcodes.Injective ∧ (Instr.b (-33554432)).wellFormed = true :=
  ⟨by decide, by decide, by decide, referenceOpcodes_injective, by decide⟩

/-- A second injective map: the table's order backwards. -/
def backwards : OpcodeMap where
  nop := 11
  add := 10
  sub := 9
  and := 8
  orri := 7
  lsl := 6
  asr := 5
  b := 4
  beq := 3
  blt := 2
  ldr := 1
  str := 0

theorem backwards_injective : backwards.Injective := by intro j k; cases j <;> cases k <;> decide

theorem witness_OpcodeMapDoesNotMatter : referenceParams.opcodes.Injective ∧ backwards.Injective ∧
    (∀ i ∈ [Instr.nop, .b (-1)], i.wellFormed = true) ∧
    (State.loaded ([Instr.nop, .b (-1)].map (encodeWith referenceParams.opcodes))).imem = [Instr.nop, .b (-1)].map (encodeWith referenceParams.opcodes) :=
  ⟨referenceOpcodes_injective, backwards_injective, by simp [Instr.wellFormed, inSignedRange], rfl⟩

theorem witness_AssembledProgramsNeverStop : referenceParams.opcodes.Injective ∧
    Asm.assemble referenceParams.opcodes [['N', 'O', 'P'], ['B', ' ', '-', '1']] = .ok [0x00000000, 0x1FFFFFFF] :=
  ⟨referenceOpcodes_injective, by decide⟩

theorem witness_MemoryOperandSpellings : Digits ['0'] ∧ Digits ['3', '1'] ∧
    Asm.parseMem ['R', '0', ',', '[', 'R', '3', '1', '+', 'R', '0', ']'] = some [0, 31, 0] ∧ ',' ∈ [',', '+'] := by
  refine ⟨⟨by decide, ?_⟩, ⟨by decide, ?_⟩, by decide, by decide⟩ <;> simp

theorem witness_CaseAndBlanksInsignificant : Asm.isBlank ' ' = true ∧ Asm.isBlank '\t' = true ∧ Asm.isBlank '\r' = true ∧ Asm.isBlank '\n' = true ∧ ['B'] ≠ ([] : Asm.Line) ∧
    (∀ h ∈ ['B'], Asm.isBlank h = false) := by
  refine ⟨by decide, by decide, by decide, by decide, by decide, fun h hh => ?_⟩
  rw [List.mem_singleton.1 hh]; decide

theorem witness_PlacedWordIsFetched : 0x1020FFFF < 2 ^ 32 ∧ 0 ≤ State.reset.pc ∧ ¬(0 ≤ ({ State.reset with pc := -3 } : State).pc) := by decide

end Sys2Proof.Tests
end

section
/-! PROOFS, the family 10_state. An instruction first reads and then writes (log 16): `effect` says what the reads come
to, `Effect.apply` makes the writes. What an instruction does not depend on is then said once of the reads
(`effect_congr`), and what it leaves alone once of the four kinds of writes. -/

namespace Sys2Proof.Machine

open Sys2Proof.Rules

/-! ## Reads, then writes -/

/-- What an instruction writes, its operands read and its result computed. -/
inductive Effect where
  /-- The pc alone: NOP and the branches. -/
  | goto (d : Int)
  /-- The end of an ALU instruction. -/
  | alu (rd : Reg) (r : Word) (v : Option Bool)
  /-- A word loaded into a register. -/
  | load (rd : Reg) (w : Word)
  /-- A word stored. -/
  | store (ea w : Word)

/-- The writes. -/
def Effect.apply : Effect → State → State
  | .goto d, s => s.advance d
  | .alu rd r v, s => s.aluEnd rd r v
  | .load rd w, s => (s.setReg rd w).advance 0
  | .store ea w, s => (s.memWrite ea w).advance 0

/-- The displacement on top of the engine's increment. -/
def Effect.delta : Effect → Int
  | .goto d => d
  | _ => 0

/-- The register written. -/
def Effect.dest : Effect → Option Reg
  | .alu rd _ _ | .load rd _ => some rd
  | _ => none

/-- What an instruction writes in a state. -/
def effect (s : State) : Instr → Effect
  | .add rd ra rb => let r := narrow ((s.reg ra).toInt + (s.reg rb).toInt)
    .alu rd r (some (vAdd (s.reg ra) (s.reg rb) r))
  | .sub rd ra rb => let r := narrow ((s.reg ra).toInt - (s.reg rb).toInt)
    .alu rd r (some (Config.vSub (s.reg ra) (s.reg rb) r))
  | .and rd ra rb => .alu rd (s.reg ra &&& s.reg rb) none
  | .orri rd ra imm => .alu rd (s.reg ra ||| immWord imm) none
  | .lsl rd ra sh => .alu rd (lslResult (s.reg ra) sh) none
  | .asr rd ra sh => let r := asrResult (s.reg ra) sh
    .alu rd r (some (Config.vAsr (s.reg ra) sh r))
  | .ldr rd ra rb => .load rd (s.memRead (s.ea ra rb))
  | .str rd ra rb => .store (s.ea ra rb) (s.reg rd)
  | i => .goto (delta s i)

/-- The machine's condition of B.LT and the rule's (43_branch R113). -/
theorem branchDelta_blt (s : State) (o : Int) : branchDelta (s.flags.n != s.flags.v) o = delta s (.blt o) := by
  simp [branchDelta, delta]

/-- Every instruction reads, then writes, and completes. -/
theorem exec_eq_apply_effect (i : Instr) (s : State) : exec i s = .next ((effect s i).apply s) := by
  cases i with
  | blt o => rw [exec_blt, branchDelta_blt]; rfl
  | _ => rfl

@[simp] theorem effect_delta (i : Instr) (s : State) : (effect s i).delta = delta s i := by cases i <;> rfl

@[simp] theorem effect_dest (i : Instr) (s : State) : (effect s i).dest = destination i := by cases i <;> rfl

/-! ## What the reads depend on -/

/-- The displacement depends on N, Z and V alone. -/
theorem delta_congr {s t : State} (hn : t.flags.n = s.flags.n) (hz : t.flags.z = s.flags.z)
    (hv : t.flags.v = s.flags.v) (i : Instr) : delta t i = delta s i := by
  cases i with
  | beq o => simp only [delta, hz]
  | blt o => simp only [delta, hn, hv]
  | _ => rfl

theorem memRead_congr {s t : State} (h : ∀ a, t.byte a = s.byte a) (ea : Word) : t.memRead ea = s.memRead ea := by
  simp only [State.memRead, h]

theorem ea_congr {s t : State} {ra rb : Reg} (ha : t.reg ra = s.reg ra) (hb : t.reg rb = s.reg rb) :
    t.ea ra rb = s.ea ra rb := by
  simp only [State.ea, ha, hb]

/-- An instruction reads its source registers, the displacement and data memory, and nothing else. -/
theorem effect_congr {i : Instr} {s t : State} (hreg : ∀ k ∈ sources i, t.reg k = s.reg k)
    (hdelta : delta t i = delta s i) (hbyte : ∀ a, t.byte a = s.byte a) : effect t i = effect s i := by
  cases i with
  | nop => rfl
  | b o | beq o | blt o => exact congrArg Effect.goto hdelta
  | add rd ra rb | sub rd ra rb | and rd ra rb =>
    simp only [effect, hreg ra (by simp [sources]), hreg rb (by simp [sources])]
  | orri rd ra v | lsl rd ra v | asr rd ra v => simp only [effect, hreg ra (by simp [sources])]
  | ldr rd ra rb =>
    have hea : t.ea ra rb = s.ea ra rb := ea_congr (hreg ra (by simp [sources])) (hreg rb (by simp [sources]))
    simp only [effect, hea, memRead_congr hbyte]
  | str rd ra rb =>
    have hea : t.ea ra rb = s.ea ra rb := ea_congr (hreg ra (by simp [sources])) (hreg rb (by simp [sources]))
    simp only [effect, hea, hreg rd (by simp [sources])]

/-- The pc is not read. -/
@[simp] theorem effect_withPc (i : Instr) (s : State) (p : Int) : effect { s with pc := p } i = effect s i :=
  effect_congr (fun _ _ => rfl) (delta_congr rfl rfl rfl i) fun _ => rfl

/-- C is not read. -/
@[simp] theorem effect_withCarry (i : Instr) (s : State) (c : Bool) :
    effect { s with flags := { s.flags with c := c } } i = effect s i :=
  effect_congr (fun _ _ => rfl) (delta_congr rfl rfl rfl i) fun _ => rfl

/-- A register that is no source is not read. -/
theorem effect_setReg {i : Instr} {k : Reg} (h : k ∉ sources i) (s : State) (v : Word) :
    effect (s.setReg k v) i = effect s i :=
  effect_congr (fun _ hj => s.reg_setReg_other v (ne_of_mem_of_not_mem hj h)) (delta_congr rfl rfl rfl i) fun _ => rfl

/-! ## What the writes leave alone -/

@[simp] theorem Effect.apply_pc (e : Effect) (s : State) : (e.apply s).pc = s.pc + 1 + e.delta := by
  cases e <;> rfl

@[simp] theorem Effect.apply_flags_c (e : Effect) (s : State) : (e.apply s).flags.c = s.flags.c := by
  cases e <;> rfl

theorem Effect.apply_reg_other {e : Effect} {k : Reg} (h : e.dest ≠ some k) (s : State) :
    (e.apply s).reg k = s.reg k := by
  cases e with
  | goto d => rfl
  | alu rd r v => exact s.aluEnd_reg_other r v fun hk => h (congrArg some hk.symm)
  | load rd w => exact s.reg_setReg_other w fun hk => h (congrArg some hk.symm)
  | store ea w => rfl

/-- The pc at the start shows in the pc at the end alone. -/
theorem Effect.apply_withPc (e : Effect) (s : State) (p : Int) :
    e.apply { s with pc := p } = { e.apply s with pc := p + 1 + e.delta } := by
  cases e <;> rfl

/-- C at the start shows in C at the end alone. -/
theorem Effect.apply_withCarry (e : Effect) (s : State) (c : Bool) :
    e.apply { s with flags := { s.flags with c := c } } =
      { e.apply s with flags := { (e.apply s).flags with c := c } } := by
  cases e <;> rfl

theorem State.aluEnd_setReg_same (s : State) (k : Reg) (w r : Word) (v : Option Bool) :
    (s.setReg k w).aluEnd k r v = s.aluEnd k r v := by
  simp only [State.aluEnd, State.setReg_setReg_same, State.setReg_flags]

theorem State.aluEnd_setReg_other (s : State) {k rd : Reg} (h : k ≠ rd) (w r : Word) (v : Option Bool) :
    (s.setReg k w).aluEnd rd r v = (s.aluEnd rd r v).setReg k w := by
  simp only [State.aluEnd, State.setReg_comm s w r h]; rfl

/-- The old value of the register written has no influence. -/
theorem Effect.apply_setReg_dest {e : Effect} {k : Reg} (h : e.dest = some k) (s : State) (w : Word) :
    e.apply (s.setReg k w) = e.apply s := by
  cases e with
  | alu rd r v => cases h; exact s.aluEnd_setReg_same k w r v
  | load rd x => cases h; exact congrArg (State.advance · 0) (s.setReg_setReg_same k w x)
  | goto _ | store _ _ => cases h

/-- The old value of any other register shows in that register alone. -/
theorem Effect.apply_setReg_other {e : Effect} {k : Reg} (h : e.dest ≠ some k) (s : State) (w : Word) :
    e.apply (s.setReg k w) = (e.apply s).setReg k w := by
  cases e with
  | alu rd r v => exact s.aluEnd_setReg_other (fun hk => h (congrArg some hk.symm)) w r v
  | load rd x =>
    exact congrArg (State.advance · 0) (s.setReg_comm w x fun hk => h (congrArg some hk.symm))
  | goto _ | store _ _ => rfl

/-! ## The statements -/

/-- Settles O8: the pc is written by the displacement, and neither the reads nor the other writes see it. -/
theorem pcAdvancesByOnePlusDelta : Obligations.PcAdvancesByOnePlusDelta := by
  intro i s
  refine ⟨(effect s i).apply s, exec_eq_apply_effect i s, by simp, fun p => ?_⟩
  rw [exec_eq_apply_effect, effect_withPc, Effect.apply_withPc, effect_delta]

/-- A cycle keeps C. -/
theorem cycle_keeps_carry {P : Params} {s t : State} (h : cycle P s = .next t) : t.flags.c = s.flags.c := by
  obtain ⟨-, rfl⟩ | ⟨w, i, -, -, hx⟩ := cycle_next_cases h
  · rfl
  · rw [exec_eq_apply_effect] at hx
    cases hx
    exact Effect.apply_flags_c _ s

/-- Settles O24: no instruction reads or writes C, so every cycle of a run keeps it. -/
theorem carryIsConstantZero : Obligations.CarryIsConstantZero := by
  refine ⟨rfl, fun i s c => ?_, fun P s t k hs h => ?_⟩
  · refine ⟨(effect s i).apply s, exec_eq_apply_effect i s, Effect.apply_flags_c _ s, ?_⟩
    rw [exec_eq_apply_effect, effect_withCarry, Effect.apply_withCarry]
  · exact run_keeps (I := fun u => u.flags.c = false) (fun _ _ hu hc => (cycle_keeps_carry hc).trans hu) k hs h

/-- Settles O28: a write is to one register, an instruction writes its destination alone, and the other value of a
register that it does not read is either overwritten or carried along. -/
theorem registerReadersAndWriters : Obligations.RegisterReadersAndWriters := by
  refine ⟨fun s k v => ⟨by simp, fun j hj => s.reg_setReg_other _ hj⟩, fun i s => ?_, fun i s k v hk => ?_⟩
  · exact ⟨_, exec_eq_apply_effect i s, fun k hd => Effect.apply_reg_other (by rwa [effect_dest]) s⟩
  · refine ⟨_, exec_eq_apply_effect i s, ?_⟩
    rw [exec_eq_apply_effect, effect_setReg hk]
    split
    · next hd => rw [Effect.apply_setReg_dest (by rwa [effect_dest])]
    · next hd => rw [Effect.apply_setReg_other (by rwa [effect_dest])]

end Sys2Proof.Machine
end

section
/-! PROOFS, the family 20_memory. IMEM is apart from everything an instruction touches: the reads do not see it
(`effect_withImem`), the writes carry it along (`Effect.apply_imem`, `Effect.apply_withImem`). -/

namespace Sys2Proof.Machine

/-- IMEM is not read. -/
@[simp] theorem effect_withImem (i : Instr) (s : State) (program : List Word) :
    effect { s with imem := program } i = effect s i :=
  effect_congr (fun _ _ => rfl) (delta_congr rfl rfl rfl i) fun _ => rfl

@[simp] theorem Effect.apply_imem (e : Effect) (s : State) : (e.apply s).imem = s.imem := by
  cases e <;> rfl

/-- The program at the start shows in the program at the end alone. -/
theorem Effect.apply_withImem (e : Effect) (s : State) (program : List Word) :
    e.apply { s with imem := program } = { e.apply s with imem := program } := by
  cases e <;> rfl

/-- A cycle keeps IMEM. -/
theorem cycle_keeps_imem {P : Params} {s t : State} (h : cycle P s = .next t) : t.imem = s.imem := by
  obtain ⟨-, rfl⟩ | ⟨w, i, -, -, hx⟩ := cycle_next_cases h
  · rfl
  · rw [exec_eq_apply_effect] at hx
    cases hx
    exact Effect.apply_imem _ s

/-- A fetch depends on the pc and IMEM alone. -/
theorem fetch_congr {s t : State} (hpc : t.pc = s.pc) (himem : t.imem = s.imem) : t.fetch = s.fetch := by
  simp only [State.fetch, hpc, himem]

/-- Settles O34: no instruction reads or writes IMEM, so every cycle of a run keeps it, and a store changes neither of
the two things that a fetch depends on. -/
theorem instructionMemoryIsImmutable : Obligations.InstructionMemoryIsImmutable := by
  refine ⟨fun i s program => ?_, fun P s t k h => ?_, fun s ea v => ?_⟩
  · refine ⟨(effect s i).apply s, exec_eq_apply_effect i s, Effect.apply_imem _ s, ?_⟩
    rw [exec_eq_apply_effect, effect_withImem, Effect.apply_withImem]
  · exact run_keeps (I := fun u => u.imem = s.imem) (fun _ _ hu hc => (cycle_keeps_imem hc).trans hu) k rfl h
  · exact fetch_congr (s.memWrite_pc ea v) (s.memWrite_imem ea v)

end Sys2Proof.Machine
end

section
/-! PROOFS, the family 40_engine_nop. The run state is read off the pc (R80), and a fetch tells the two run states apart;
the pc after a cycle is `pc + 1` with the displacement, which is the offset of a taken branch or nothing (R82). A state
that a cycle leaves as it is stays for ever, which is R83 of a halted engine and R89 of a branch to itself. -/

namespace Sys2Proof.Machine

open Sys2Proof.Rules

/-! ## The run state -/

@[simp] theorem State.running_iff (s : State) : s.running = true ↔ 0 ≤ s.pc ∧ s.pc < s.imem.length := by
  simp [State.running]

@[simp] theorem State.halted_iff (s : State) : s.halted = true ↔ s.pc < 0 ∨ s.imem.length ≤ s.pc := by
  simp [State.halted]

/-- The two run states are each other's negation. -/
theorem State.running_eq_not_halted (s : State) : s.running = !s.halted := by
  rw [Bool.eq_iff_iff, Bool.not_eq_true', ← Bool.not_eq_true, State.running_iff, State.halted_iff]
  omega

theorem State.fetch_of_running {s : State} (h : s.running = true) : s.fetch = s.imem[s.pc.toNat]? :=
  if_pos (s.running_iff.1 h).1

/-- A fetch answers nothing exactly when the engine is halted. -/
theorem State.fetch_eq_none_iff (s : State) : s.fetch = none ↔ s.halted = true := by
  rw [State.halted_iff]
  by_cases h : 0 ≤ s.pc
  · rw [State.fetch, if_pos h, List.getElem?_eq_none_iff]; omega
  · rw [State.fetch, if_neg h]; exact iff_of_true rfl (.inl (not_le.1 h))

/-- The status shows HALTED exactly where a fetch answers nothing: a fetched word shows RUNNING or INVALID. -/
theorem State.status_eq_halted_iff (P : Params) (s : State) : s.status P = .halted ↔ s.fetch = none := by
  unfold State.status
  cases s.fetch with
  | none => simp
  | some w => cases hd : decodeWith P w <;> simp [hd]

/-- Settles O3: the bounds are R80's definition, and a fetch tells the run states apart for the status too. -/
theorem runStateIsPcInBounds : Obligations.RunStateIsPcInBounds := fun P s =>
  ⟨s.running_iff, s.halted_iff, s.running_eq_not_halted, s.fetch_eq_none_iff,
    (s.status_eq_halted_iff P).trans s.fetch_eq_none_iff, State.fetch_of_running⟩

/-! ## One cycle and the states it leaves as they are -/

theorem cycle_of_halted {P : Params} {s : State} (h : s.halted = true) : cycle P s = .next s := by
  simp only [cycle, s.fetch_eq_none_iff.2 h]

theorem cycle_eq_exec {P : Params} {s : State} {w : Word} {i : Instr} (hf : s.fetch = some w)
    (hd : decodeWith P w = .ok i) : cycle P s = exec i s := by
  simp only [cycle, hf, hd]

/-- A state that a cycle leaves as it is stays for ever. -/
theorem run_of_cycle_self {P : Params} {s : State} (h : cycle P s = .next s) (k : Nat) : run P k s = .next s := by
  induction k with
  | zero => rfl
  | succ k ih => rw [run_succ_of_next h, ih]

/-- The displacement -1 takes the engine's increment back. -/
theorem State.advance_neg_one (s : State) : s.advance (-1) = s := by
  have hpc : s.pc + 1 + -1 = s.pc := by omega
  rw [State.advance, hpc]

/-- Settles O9: `B -1` takes the increment back, so its cycle leaves the state as it is. -/
theorem selfBranchRunsForEver : Obligations.SelfBranchRunsForEver := by
  intro P s w hf hd
  have hself : cycle P s = .next s := by rw [cycle_eq_exec hf hd, exec_b, State.advance_neg_one]
  exact ⟨s.running_iff.2 (pc_of_fetch hf), run_of_cycle_self hself⟩

/-! ## The ways into HALTED -/

/-- The displacement is the offset of a taken branch, or nothing. -/
theorem delta_eq_takenOffset_getD (s : State) (i : Instr) : delta s i = (takenOffset s i).getD 0 := by
  cases i with
  | beq o | blt o => simp only [delta, takenOffset]; split <;> rfl
  | _ => rfl

/-- A running engine's cycle that goes on has run a decoded instruction, and the pc is R82's. -/
theorem cycle_running_cases {P : Params} {s t : State} (hs : s.running = true) (h : cycle P s = .next t) :
    ∃ w i, s.fetch = some w ∧ decodeWith P w = .ok i ∧ t.pc = s.pc + 1 + (takenOffset s i).getD 0 := by
  obtain ⟨hf, -⟩ | ⟨w, i, hf, hd, hx⟩ := cycle_next_cases h
  · simp [s.running_eq_not_halted, s.fetch_eq_none_iff.1 hf] at hs
  · rw [exec_eq_apply_effect] at hx
    cases hx
    exact ⟨w, i, hf, hd, by rw [Effect.apply_pc, effect_delta, delta_eq_takenOffset_getD]⟩

/-- Settles O4: a cycle leaves a halted engine as it is; a running engine's cycle keeps IMEM, so HALTED is a matter of
the new pc, which without a taken branch can leave the bounds by one place above alone. -/
theorem haltedIsAbsorbingAndItsWays : Obligations.HaltedIsAbsorbingAndItsWays := by
  refine ⟨fun P s h => run_of_cycle_self (cycle_of_halted h), rfl, fun P s t hs hc => ?_⟩
  rw [State.halted_iff, cycle_keeps_imem hc]
  constructor
  · intro ht
    obtain ⟨w, i, hf, hd, hpc⟩ := cycle_running_cases hs hc
    refine ⟨w, i, hf, hd, ?_⟩
    cases ho : takenOffset s i with
    | none =>
      obtain ⟨h0, h1⟩ := s.running_iff.1 hs
      rw [ho, Option.getD_none] at hpc
      exact .inl ⟨rfl, by omega, by omega⟩
    | some offset =>
      rw [ho, Option.getD_some] at hpc
      exact .inr ⟨offset, rfl, hpc, hpc ▸ ht.symm⟩
  · rintro ⟨w, i, -, -, ⟨-, -, hpc⟩ | ⟨offset, -, hpc, hout⟩⟩
    · exact .inr hpc.ge
    · rw [hpc]; exact hout.symm

end Sys2Proof.Machine
end

section
/-! PROOFS, the family 41_alu_register. The six writers of N and Z are those that end in `aluEnd` (R90), so what R91 says
of N and Z is said once of a result word. -/

namespace Sys2Proof.Machine

open Sys2Proof.Rules

/-! ## N and Z of a result -/

/-- N is bit 31 of the pattern. -/
theorem negative_eq_getLsbD (r : Word) : negative r = r.getLsbD 31 :=
  BitVec.msb_eq_toInt.symm.trans (BitVec.msb_eq_getLsbD_last r)

/-- Z is 1 for the zero pattern alone. -/
theorem zero_iff_eq_zero (r : Word) : zero r = true ↔ r = 0 := by
  rw [zero_iff, ← BitVec.toInt_inj, BitVec.ofNat_eq_ofNat, BitVec.toInt_zero]

/-- No result is both negative and zero. -/
theorem not_negative_and_zero (r : Word) : ¬(negative r = true ∧ zero r = true) := by
  rw [negative_iff, zero_iff]
  omega

/-! ## The writers of N and Z -/

/-- An instruction that writes N and Z ends as an ALU instruction, with its `Rd`. -/
theorem exec_eq_aluEnd_of_writesNZ {i : Instr} {rd : Reg} (h : writesNZ i = some rd) (s : State) :
    ∃ r v, exec i s = .next (s.aluEnd rd r v) := by
  cases i with
  | add | sub | and | orri | lsl | asr => cases h; exact ⟨_, _, rfl⟩
  | nop | b | beq | blt | ldr | str => cases h

/-- Settles O22: a writer of N and Z puts one result into `Rd` and into the flags, and R91 holds of any result. -/
theorem nzAgreeWithTheResult : Obligations.NZAgreeWithTheResult := by
  intro i s rd h
  obtain ⟨r, v, hx⟩ := exec_eq_aluEnd_of_writesNZ h s
  refine ⟨s.aluEnd rd r v, hx, ?_⟩
  rw [State.aluEnd_reg_same]
  exact ⟨⟨negative_iff r, zero_iff r⟩, negative_eq_getLsbD r, zero_iff_eq_zero r, not_negative_and_zero r⟩

end Sys2Proof.Machine
end

section
/-! PROOFS, the family 70_reset_and_hazards. The reset event loads the program that IMEM already holds (R145), so what
R146 says of the entry point is said once of a loaded program: its pc is 0. -/

namespace Sys2Proof.Machine

@[simp] theorem State.loaded_pc (program : List Word) : (State.loaded program).pc = 0 := rfl

@[simp] theorem State.loaded_imem (program : List Word) : (State.loaded program).imem = program := rfl

theorem State.resetEvent_eq_loaded (s : State) : s.resetEvent = State.loaded s.imem := rfl

/-- The entry point is `IMEM[0]`. -/
theorem State.fetch_loaded (program : List Word) : (State.loaded program).fetch = program.head? := by
  rw [State.fetch, State.loaded_pc, if_pos le_rfl, State.loaded_imem, Int.toNat_zero, List.head?_eq_getElem?]

/-- An engine just loaded is halted exactly when it has no program. -/
theorem State.loaded_halted_iff (program : List Word) : (State.loaded program).halted = true ↔ program = [] := by
  rw [← State.fetch_eq_none_iff, State.fetch_loaded, List.head?_eq_none_iff]

/-- Settles O2: the first fetch answers the head of the program, so with none the engine is halted, and a halted engine
stays as it is. -/
theorem entryPoint : Obligations.EntryPoint := by
  refine ⟨fun s => State.fetch_loaded s.imem, State.fetch_loaded, fun P s hempty => ?_⟩
  have hhalted : s.resetEvent.halted = true := by rwa [State.resetEvent_eq_loaded, State.loaded_halted_iff]
  exact ⟨hhalted, run_of_cycle_self (cycle_of_halted hhalted)⟩

end Sys2Proof.Machine
end

section
/-! PROOFS, the invariant of the machine's data. A cycle that goes on leaves the state or makes one `Effect`'s writes
(`cycle_next_effect`); of these the store alone touches data memory or `WRITTEN`, and none touches C. -/

namespace Sys2Proof.Machine

/-! ## One cycle as reads, then writes -/

/-- A cycle that goes on leaves a halted engine as it is, or makes the writes of the decoded instruction. -/
theorem cycle_next_effect {P : Params} {s t : State} (h : cycle P s = .next t) :
    (s.fetch = none ∧ t = s) ∨
      ∃ w i, s.fetch = some w ∧ decodeWith P w = .ok i ∧ t = (effect s i).apply s := by
  obtain hs | ⟨w, i, hf, hd, hx⟩ := cycle_next_cases h
  · exact .inl hs
  · rw [exec_eq_apply_effect] at hx
    cases hx
    exact .inr ⟨w, i, hf, hd, rfl⟩

/-- What every instruction's writes keep, every cycle keeps. -/
theorem cycle_keeps_of_apply {I : State → Prop} (hI : ∀ (e : Effect) (s : State), I s → I (e.apply s))
    {P : Params} {s t : State} (hs : I s) (h : cycle P s = .next t) : I t := by
  obtain ⟨-, rfl⟩ | ⟨w, i, -, -, rfl⟩ := cycle_next_effect h
  · exact hs
  · exact hI _ s hs

/-! ## The invariant -/

/-- The invariant is about data memory, `WRITTEN` and C alone. -/
theorem State.Inv.congr {s t : State} (h : s.Inv) (hmem : t.mem = s.mem) (hwritten : t.written = s.written)
    (hcarry : t.flags.c = s.flags.c) : t.Inv where
  memWf := hmem ▸ h.memWf
  writtenWf := hwritten ▸ h.writtenWf
  unwritten a ha := by
    rw [State.byte, hmem]
    exact h.unwritten a (hwritten ▸ ha)
  carry := hcarry.trans h.carry

/-- A word store keeps the invariant: an address it does not add to `WRITTEN` keeps its byte. -/
theorem State.Inv.memWrite {s : State} (h : s.Inv) (ea v : Word) : (s.memWrite ea v).Inv where
  memWf := (State.wf_memWrite h.memWf h.writtenWf ea v).1
  writtenWf := (State.wf_memWrite h.memWf h.writtenWf ea v).2
  unwritten a ha := by
    simp only [State.mem_memWrite_written, not_or] at ha
    obtain ⟨h3, h2, h1, h0, hw⟩ := ha
    rw [State.memWrite_byte, if_neg h3, if_neg h2, if_neg h1, if_neg h0]
    exact h.unwritten a hw
  carry := h.carry

/-- No instruction's writes break the invariant. -/
theorem Effect.apply_inv (e : Effect) (s : State) (h : s.Inv) : (e.apply s).Inv := by
  cases e with
  | goto d => exact h.congr rfl rfl rfl
  | alu rd r v => exact h.congr rfl rfl rfl
  | load rd w => exact h.congr rfl rfl rfl
  | store ea w => exact (h.memWrite ea w).congr rfl rfl rfl

/-- A cycle keeps the invariant. -/
theorem cycle_keeps_inv {P : Params} {s t : State} (hs : s.Inv) (h : cycle P s = .next t) : t.Inv :=
  cycle_keeps_of_apply Effect.apply_inv hs h

/-- Settles O35: every instruction's writes keep the invariant, and `step` is a cycle. -/
theorem everyStepKeepsTheInvariant : Obligations.EveryStepKeepsTheInvariant := by
  rintro P s t hs (h | h)
  · exact cycle_keeps_inv hs h
  · exact cycle_keeps_inv (P := referenceParams) hs h

end Sys2Proof.Machine
end

section
/-! PROOFS, the family 30_encoding. A word is the number that its fields make, and the fields of such a number are the
ones it was made of; so a word decodes by its opcode field and its padding (`decodeWith_of_fields`), and encoding and
decoding are inverse format by format. -/

namespace Sys2Proof

open Sys2Proof.Machine Sys2Proof.Rules

/-! ## Looking a word's opcode up -/

/-- A mnemonic has a word's opcode, as a pattern and as a number. -/
theorem code_eq_opcodeField_iff (m : OpcodeMap) (k : Mnemonic) (w : Word) :
    m.code k = opcodeField w ↔ (m.code k).toNat = w.toNat / 2 ^ 26 := by
  rw [← BitVec.toNat_inj, opcodeField_toNat]

/-- Under an injective map the mnemonic found is the one that has the opcode. -/
theorem OpcodeMap.mnemonicOf_eq_some_iff {m : OpcodeMap} (hm : m.Injective) {c : BitVec 6} {k : Mnemonic} :
    m.mnemonicOf c = some k ↔ m.code k = c :=
  ⟨OpcodeMap.code_of_mnemonicOf, fun h => h ▸ OpcodeMap.mnemonicOf_code hm k⟩

theorem padRejects_iff (p : PadPolicy) (k : Mnemonic) (w : Word) :
    padRejects p k w = true ↔ p = .invalid ∧ padField k.format w ≠ 0 := by
  cases p <;> simp [padRejects]

@[simp] theorem padRejects_ignore (k : Mnemonic) (w : Word) : padRejects .ignore k w = false := rfl

theorem padRejects_of_padField {k : Mnemonic} {w : Word} (h : padField k.format w = 0) (p : PadPolicy) :
    padRejects p k w = false := by
  rw [← Bool.not_eq_true, padRejects_iff]
  exact fun hp => hp.2 h

/-- A word with a mnemonic's opcode and no padding bit set decodes to its operands. -/
theorem decodeWith_of_fields {P : Params} (hP : P.opcodes.Injective) {k : Mnemonic} {w : Word}
    (hop : opcodeField w = P.opcodes.code k) (hpad : padField k.format w = 0) :
    decodeWith P w = .ok (operandsOf k w) :=
  (decodeWith_ok_iff P w _).2 ⟨k, (OpcodeMap.mnemonicOf_eq_some_iff hP).2 hop.symm, padRejects_of_padField hpad _, rfl⟩

/-! ## The fields of a word given as a number -/

/-- The opcode of a word, from the interval that the bits below it leave. -/
theorem opcodeField_of_toNat {w : Word} {c : BitVec 6} (hlo : c.toNat * 2 ^ 26 ≤ w.toNat)
    (hhi : w.toNat < c.toNat * 2 ^ 26 + 2 ^ 26) : opcodeField w = c := by
  apply BitVec.eq_of_toNat_eq
  rw [opcodeField_toNat]
  omega

/-- A signed value in range is what its `n` bits read as. -/
theorem signed_trunc {n : Nat} {v : Int} (hn : 0 < n) (hlo : -2 ^ (n - 1) ≤ v) (hhi : v < 2 ^ (n - 1)) :
    signed n (trunc n v) = v := by
  rw [← toNat_ofInt_eq_trunc, ← toInt_eq_signed _ hn]
  exact BitVec.toInt_ofInt_eq_self hn hlo hhi

/-- The padding is zero in a word of format NONE, R3 or MEM whose low bits are, and in every word of the others. -/
theorem padField_eq_zero {k : Mnemonic} {w : Word} (hnone : k.format = .none → w.toNat % 2 ^ 26 = 0)
    (hlow : k.format = .r3 ∨ k.format = .mem → w.toNat % 2 ^ 11 = 0) : padField k.format w = 0 := by
  cases hk : k.format with
  | none => rw [padField_none]; exact hnone hk
  | r3 => rw [padField_r3]; exact hlow (.inl hk)
  | mem => rw [padField_mem]; exact hlow (.inr hk)
  | ri => rfl
  | off => rfl

/-- Format R3 or MEM: the word with these fields decodes to the instruction the operands make. -/
theorem encodedR3 {k : Mnemonic} {i : Reg → Reg → Reg → Instr} (hk : k.format = .r3 ∨ k.format = .mem)
    (hi : ∀ w, operandsOf k w = i (rdField w) (raField w) (rbField w)) : EncodedR3 k i := by
  intro P rd ra rb w hP hw
  have hop : opcodeField w = P.opcodes.code k := opcodeField_of_toNat (by omega) (by omega)
  have hrd : rdField w = rd := by apply Fin.ext; rw [rdField_val]; omega
  have hra : raField w = ra := by apply Fin.ext; rw [raField_val]; omega
  have hrb : rbField w = rb := by apply Fin.ext; rw [rbField_val]; omega
  have hpad : padField k.format w = 0 :=
    padField_eq_zero (fun hn => by simp [hn] at hk) fun _ => by omega
  rw [decodeWith_of_fields hP hop hpad, hi, hrd, hra, hrb]

/-- Format RI, the immediate in range. -/
theorem encodedRI {k : Mnemonic} {i : Reg → Reg → Int → Instr} (hk : k.format = .ri)
    (hi : ∀ w, operandsOf k w = i (rdField w) (raField w) (immField w)) : EncodedRI k i := by
  intro P rd ra imm w hP hlo hhi hw
  have hbounds := trunc_bounds 16 imm
  obtain ⟨low, hlow⟩ : ∃ low : Nat, trunc 16 imm = low := Int.eq_ofNat_of_zero_le hbounds.1
  rw [hlow] at hbounds hw
  have hop : opcodeField w = P.opcodes.code k := opcodeField_of_toNat (by omega) (by omega)
  have hrd : rdField w = rd := by apply Fin.ext; rw [rdField_val]; omega
  have hra : raField w = ra := by apply Fin.ext; rw [raField_val]; omega
  have himm : immField w = imm := by
    have hmod : w.toNat % 2 ^ 16 = low := by omega
    rw [immField_eq, hmod, ← hlow]
    exact signed_trunc (by omega) hlo (by omega)
  rw [decodeWith_of_fields hP hop (by rw [hk]; rfl), hi, hrd, hra, himm]

/-- Format OFF, the offset in range. -/
theorem encodedOff {k : Mnemonic} {i : Int → Instr} (hk : k.format = .off)
    (hi : ∀ w, operandsOf k w = i (offField w)) : EncodedOff k i := by
  intro P offset w hP hlo hhi hw
  have hbounds := trunc_bounds 26 offset
  obtain ⟨low, hlow⟩ : ∃ low : Nat, trunc 26 offset = low := Int.eq_ofNat_of_zero_le hbounds.1
  rw [hlow] at hbounds hw
  have hop : opcodeField w = P.opcodes.code k := opcodeField_of_toNat (by omega) (by omega)
  have hoff : offField w = offset := by
    have hmod : w.toNat % 2 ^ 26 = low := by omega
    rw [offField_eq, hmod, ← hlow]
    exact signed_trunc (by omega) hlo (by omega)
  rw [decodeWith_of_fields hP hop (by rw [hk]; rfl), hi, hoff]

/-- Format NONE. -/
theorem decodeWith_nop {P : Params} {w : Word} (hP : P.opcodes.Injective)
    (hw : w.toNat = (P.opcodes.code .nop).toNat * 2 ^ 26) : decodeWith P w = .ok .nop := by
  have hop : opcodeField w = P.opcodes.code .nop := opcodeField_of_toNat (by omega) (by omega)
  exact decodeWith_of_fields hP hop ((padField_none w).trans (by omega))

/-! ## Decoding what the encoder makes -/

theorem inSignedRange_iff (n : Nat) (v : Int) :
    inSignedRange n v = true ↔ -2 ^ (n - 1) ≤ v ∧ v < 2 ^ (n - 1) := by
  simp [inSignedRange]

/-- A register index fits its field. -/
@[simp] theorem trunc_reg (r : Reg) : trunc 5 (r.val : Int) = r.val :=
  Int.emod_eq_of_lt (by omega) (by omega)

/-- Format R3 or MEM: the packed word decodes to the instruction. -/
theorem decode_packR3 {k : Mnemonic} {i : Reg → Reg → Reg → Instr} (h : EncodedR3 k i) {P : Params}
    (hP : P.opcodes.Injective) (rd ra rb : Reg) :
    decodeWith P (packR3 (P.opcodes.code k) rd.val ra.val rb.val) = .ok (i rd ra rb) := by
  refine h P rd ra rb _ hP ?_
  have hpack := packR3_toNat (P.opcodes.code k) rd.val ra.val rb.val
  simp only [trunc_reg] at hpack
  exact_mod_cast hpack

/-- Format RI: the packed word of a well-formed instruction decodes to it. -/
theorem decode_packRI {k : Mnemonic} {i : Reg → Reg → Int → Instr} (h : EncodedRI k i) {P : Params}
    (hP : P.opcodes.Injective) (rd ra : Reg) {imm : Int} (himm : inSignedRange 16 imm = true) :
    decodeWith P (packRI (P.opcodes.code k) rd.val ra.val imm) = .ok (i rd ra imm) := by
  obtain ⟨hlo, hhi⟩ := (inSignedRange_iff 16 imm).1 himm
  refine h P rd ra imm _ hP (by omega) (by omega) ?_
  rw [packRI_toNat, trunc_reg, trunc_reg]

/-- Format OFF: the packed word of a well-formed branch decodes to it. -/
theorem decode_packOff {k : Mnemonic} {i : Int → Instr} (h : EncodedOff k i) {P : Params}
    (hP : P.opcodes.Injective) {offset : Int} (hoff : inSignedRange 26 offset = true) :
    decodeWith P (packOff (P.opcodes.code k) offset) = .ok (i offset) := by
  obtain ⟨hlo, hhi⟩ := (inSignedRange_iff 26 offset).1 hoff
  exact h P offset _ hP (by omega) (by omega) (packOff_toNat _ offset)

theorem encodedAdd : EncodedR3 .add .add := encodedR3 (.inl rfl) fun _ => rfl
theorem encodedSub : EncodedR3 .sub .sub := encodedR3 (.inl rfl) fun _ => rfl
theorem encodedAnd : EncodedR3 .and .and := encodedR3 (.inl rfl) fun _ => rfl
theorem encodedLdr : EncodedR3 .ldr .ldr := encodedR3 (.inr rfl) fun _ => rfl
theorem encodedStr : EncodedR3 .str .str := encodedR3 (.inr rfl) fun _ => rfl
theorem encodedOrri : EncodedRI .orri .orri := encodedRI rfl fun _ => rfl
theorem encodedLsl : EncodedRI .lsl .lsl := encodedRI rfl fun _ => rfl
theorem encodedAsr : EncodedRI .asr .asr := encodedRI rfl fun _ => rfl
theorem encodedB : EncodedOff .b .b := encodedOff rfl fun _ => rfl
theorem encodedBEq : EncodedOff .beq .beq := encodedOff rfl fun _ => rfl
theorem encodedBLt : EncodedOff .blt .blt := encodedOff rfl fun _ => rfl

/-- Settles O39, format by format: the packed word's fields are the operands. -/
theorem decodeAfterEncode : Obligations.DecodeAfterEncode := by
  intro P i hP hwf
  cases i with
  | nop => exact decodeWith_nop hP (packNone_toNat _)
  | add rd ra rb => exact decode_packR3 encodedAdd hP rd ra rb
  | sub rd ra rb => exact decode_packR3 encodedSub hP rd ra rb
  | and rd ra rb => exact decode_packR3 encodedAnd hP rd ra rb
  | orri rd ra imm => exact decode_packRI encodedOrri hP rd ra hwf
  | lsl rd ra sh => exact decode_packRI encodedLsl hP rd ra hwf
  | asr rd ra sh => exact decode_packRI encodedAsr hP rd ra hwf
  | b offset => exact decode_packOff encodedB hP hwf
  | beq offset => exact decode_packOff encodedBEq hP hwf
  | blt offset => exact decode_packOff encodedBLt hP hwf
  | ldr rd ra rb => exact decode_packR3 encodedLdr hP rd ra rb
  | str rd ra rb => exact decode_packR3 encodedStr hP rd ra rb

end Sys2Proof
end

section
/-! PROOFS, the family 30_encoding, the other way round: the word that a word's fields make is the word itself where the
padding is zero; which words decode, under either padding policy; and the encoder on integers of any size. -/

namespace Sys2Proof

open Sys2Proof.Machine Sys2Proof.Rules

/-! ## Packing the fields of a word -/

theorem trunc_immField (w : Word) : trunc 16 (immField w) = (w.toNat % 2 ^ 16 : Nat) := by
  rw [immField, ← toNat_ofInt_eq_trunc, BitVec.ofInt_toInt, BitVec.extractLsb'_toNat, Nat.shiftRight_zero]

theorem trunc_offField (w : Word) : trunc 26 (offField w) = (w.toNat % 2 ^ 26 : Nat) := by
  rw [offField, ← toNat_ofInt_eq_trunc, BitVec.ofInt_toInt, BitVec.extractLsb'_toNat, Nat.shiftRight_zero]

/-- A number is the sum of the fields of format RI. -/
theorem sum_of_fields (n : Nat) :
    n / 2 ^ 26 * 2 ^ 26 + n / 2 ^ 21 % 32 * 2 ^ 21 + n / 2 ^ 16 % 32 * 2 ^ 16 + n % 2 ^ 16 = n := by
  have h21 : n / 2 ^ 21 = n / 2 ^ 16 / 32 := by omega
  have h26 : n / 2 ^ 26 = n / 2 ^ 21 / 32 := by omega
  omega

theorem packNone_fields {w : Word} (hpad : w.toNat % 2 ^ 26 = 0) : packNone (opcodeField w) = w := by
  apply BitVec.eq_of_toNat_eq
  rw [packNone_toNat, opcodeField_toNat]
  omega

theorem packR3_fields {w : Word} (hpad : w.toNat % 2 ^ 11 = 0) :
    packR3 (opcodeField w) (rdField w).val (raField w).val (rbField w).val = w := by
  have hsum := sum_of_fields w.toNat
  have hlow : w.toNat % 2 ^ 16 = w.toNat / 2 ^ 11 % 32 * 2 ^ 11 := by omega
  rw [hlow] at hsum
  apply BitVec.eq_of_toNat_eq
  zify
  rw [packR3_toNat, trunc_reg, trunc_reg, trunc_reg, opcodeField_toNat, rdField_val, raField_val, rbField_val]
  exact_mod_cast hsum

theorem packRI_fields (w : Word) :
    packRI (opcodeField w) (rdField w).val (raField w).val (immField w) = w := by
  apply BitVec.eq_of_toNat_eq
  zify
  rw [packRI_toNat, trunc_reg, trunc_reg, trunc_immField, opcodeField_toNat, rdField_val, raField_val]
  exact_mod_cast sum_of_fields w.toNat

theorem packOff_fields (w : Word) : packOff (opcodeField w) (offField w) = w := by
  apply BitVec.eq_of_toNat_eq
  zify
  rw [packOff_toNat, trunc_offField, opcodeField_toNat]
  exact_mod_cast Nat.div_add_mod' w.toNat (2 ^ 26)

/-- The operands of a word, encoded under its opcode, give the word back where no padding bit is set. -/
theorem encodeWith_operandsOf {m : OpcodeMap} {k : Mnemonic} {w : Word} (hop : m.code k = opcodeField w)
    (hpad : padField k.format w = 0) : encodeWith m (operandsOf k w) = w := by
  cases k with
  | nop => exact (congrArg packNone hop).trans (packNone_fields (padField_none w ▸ hpad))
  | add | sub | and =>
    exact (congrArg (packR3 · _ _ _) hop).trans (packR3_fields (padField_r3 w ▸ hpad))
  | ldr | str => exact (congrArg (packR3 · _ _ _) hop).trans (packR3_fields (padField_mem w ▸ hpad))
  | orri | lsl | asr => exact (congrArg (packRI · _ _ _) hop).trans (packRI_fields w)
  | b | beq | blt => exact (congrArg (packOff · _) hop).trans (packOff_fields w)

/-- A pattern read with its sign is in its field's range. -/
theorem inSignedRange_toInt {n : Nat} (x : BitVec n) : inSignedRange n x.toInt = true :=
  (inSignedRange_iff n _).2 ⟨BitVec.le_toInt x, BitVec.toInt_lt⟩

theorem operandsOf_wellFormed (k : Mnemonic) (w : Word) : (operandsOf k w).wellFormed = true := by
  cases k with
  | nop | add | sub | and | ldr | str => rfl
  | orri | lsl | asr => exact inSignedRange_toInt (w.extractLsb' 0 16)
  | b | beq | blt => exact inSignedRange_toInt (w.extractLsb' 0 26)

/-- Whatever decodes is well-formed. -/
theorem wellFormed_of_decodeWith {P : Params} {w : Word} {i : Instr} (h : decodeWith P w = .ok i) :
    i.wellFormed = true := by
  obtain ⟨k, -, -, rfl⟩ := (decodeWith_ok_iff P w i).1 h
  exact operandsOf_wellFormed k w

/-- Settles O40: a word that strict padding lets through is packed again from its own fields. -/
theorem encodeAfterDecode : Obligations.EncodeAfterDecode := by
  refine ⟨fun m w i h => ?_, fun P w i h => wellFormed_of_decodeWith h⟩
  obtain ⟨k, hk, hrej, rfl⟩ := (decodeWith_ok_iff _ w i).1 h
  have hpad : padField k.format w = 0 := by
    by_contra hne
    exact Bool.eq_false_iff.1 hrej ((padRejects_iff _ k w).2 ⟨rfl, hne⟩)
  exact encodeWith_operandsOf (OpcodeMap.code_of_mnemonicOf hk) hpad

/-! ## Which words decode -/

/-- A word is rejected where no mnemonic has its opcode, or where the padding policy turns it down. -/
theorem decodeWith_error_iff (P : Params) (w : Word) :
    (∃ e, decodeWith P w = .error e) ↔
      P.opcodes.mnemonicOf (opcodeField w) = none ∨
        ∃ k, P.opcodes.mnemonicOf (opcodeField w) = some k ∧ padRejects P.pad k w = true := by
  unfold decodeWith
  cases P.opcodes.mnemonicOf (opcodeField w) with
  | none => simp
  | some k => cases hrej : padRejects P.pad k w <;> simp [hrej]

/-- The mnemonics with padding bits, and which they are. -/
theorem padField_ne_zero_iff (k : Mnemonic) (w : Word) :
    padField k.format w ≠ 0 ↔
      (k = .nop ∧ w.toNat % 2 ^ 26 ≠ 0) ∨
        (k ∈ [Mnemonic.add, .sub, .and, .ldr, .str] ∧ w.toNat % 2 ^ 11 ≠ 0) := by
  cases k with
  | nop => simp [Mnemonic.format, padField_none]
  | add | sub | and => simp [Mnemonic.format, padField_r3]
  | ldr | str => simp [Mnemonic.format, padField_mem]
  | orri | lsl | asr | b | beq | blt => simp [Mnemonic.format, padField]

/-- Settles O41: the two ways a word is rejected, said of its opcode and its padding as numbers. -/
theorem invalidWordsExactly : Obligations.InvalidWordsExactly := by
  intro P w hP
  rw [decodeWith_error_iff, OpcodeMap.mnemonicOf_eq_none]
  simp only [OpcodeMap.mnemonicOf_eq_some_iff hP, padRejects_iff, padField_ne_zero_iff, ne_eq,
    code_eq_opcodeField_iff]
  refine or_congr_right ⟨?_, ?_⟩
  · rintro ⟨k, hk, hinvalid, hpad⟩
    exact ⟨hinvalid, k, hk, hpad⟩
  · rintro ⟨hinvalid, k, hk, hpad⟩
    exact ⟨k, hk, hinvalid, hpad⟩

/-! ## Ignoring the padding -/

/-- Under `ignore` a word decodes to the operands of the mnemonic its opcode names. -/
theorem decodeWith_ignore_ok_iff (m : OpcodeMap) (w : Word) (i : Instr) :
    decodeWith { opcodes := m, pad := .ignore } w = .ok i ↔
      ∃ k, m.mnemonicOf (opcodeField w) = some k ∧ i = operandsOf k w := by
  simp [decodeWith_ok_iff]

/-- Under `ignore` and an injective map a word with a mnemonic's opcode decodes to its operands. -/
theorem decodeWith_ignore_of_code {m : OpcodeMap} (hm : m.Injective) {k : Mnemonic} {w : Word}
    (hop : (m.code k).toNat = w.toNat / 2 ^ 26) :
    decodeWith { opcodes := m, pad := .ignore } w = .ok (operandsOf k w) :=
  (decodeWith_ignore_ok_iff m w _).2
    ⟨k, (OpcodeMap.mnemonicOf_eq_some_iff hm).2 ((code_eq_opcodeField_iff m k w).2 hop), rfl⟩

/-- The register fields do not see the low 11 bits. -/
theorem regFields_congr {w u : Word} (h : w.toNat / 2 ^ 11 = u.toNat / 2 ^ 11) :
    rdField w = rdField u ∧ raField w = raField u ∧ rbField w = rbField u := by
  refine ⟨Fin.ext ?_, Fin.ext ?_, Fin.ext ?_⟩
  · rw [rdField_val, rdField_val]; omega
  · rw [raField_val, raField_val]; omega
  · rw [rbField_val, rbField_val, h]

/-- An R3 or MEM mnemonic reads register fields alone. -/
theorem operandsOf_congr {k : Mnemonic} (hk : k ∈ [Mnemonic.add, .sub, .and, .ldr, .str]) {w u : Word}
    (h : w.toNat / 2 ^ 11 = u.toNat / 2 ^ 11) : operandsOf k w = operandsOf k u := by
  obtain ⟨hrd, hra, hrb⟩ := regFields_congr h
  cases k with
  | add | sub | and | ldr | str => simp only [operandsOf, hrd, hra, hrb]
  | nop | orri | lsl | asr | b | beq | blt => simp at hk

/-- Settles O42: under `ignore` the opcode alone decides whether a word decodes, and no operand lies in the padding. -/
theorem ignoringPadding : Obligations.IgnoringPadding := by
  refine ⟨fun m w i h => ?_, fun m w => ?_, fun m w hm hop => decodeWith_ignore_of_code hm hop, ?_⟩
  · obtain ⟨k, hk, -, hi⟩ := (decodeWith_ok_iff _ w i).1 h
    exact (decodeWith_ignore_ok_iff m w i).2 ⟨k, hk, hi⟩
  · calc (∃ i, decodeWith { opcodes := m, pad := .ignore } w = .ok i)
        ↔ m.mnemonicOf (opcodeField w) ≠ none := by
          simp [decodeWith_ignore_ok_iff, Option.ne_none_iff_exists']
      _ ↔ ∃ k, (m.code k).toNat = w.toNat / 2 ^ 26 := by
          simp [OpcodeMap.mnemonicOf_eq_none, code_eq_opcodeField_iff]
  · intro m k w u hm hk hop hhigh
    have hop' : (m.code k).toNat = u.toNat / 2 ^ 26 := by omega
    rw [decodeWith_ignore_of_code hm hop, decodeWith_ignore_of_code hm hop', operandsOf_congr hk hhigh]

/-! ## Counting the opcodes -/

/-- The values that name a mnemonic are the twelve of an injective map. -/
theorem filter_assigned_perm {m : OpcodeMap} (hm : m.Injective) :
    ((List.range 64).filter fun c => (m.mnemonicOf (BitVec.ofNat 6 c)).isSome).Perm
      (Mnemonic.all.map fun k => (m.code k).toNat) := by
  refine (List.perm_ext_iff_of_nodup (List.nodup_range.filter _) ?_).2 fun c => ?_
  · exact (by decide : Mnemonic.all.Nodup).map fun j k h => hm j k (BitVec.eq_of_toNat_eq h)
  · simp only [List.mem_filter, List.mem_range, Option.isSome_iff_exists, OpcodeMap.mnemonicOf_eq_some_iff hm,
      List.mem_map, Mnemonic.mem_all, true_and]
    constructor
    · rintro ⟨hc, k, hk⟩
      exact ⟨k, by rw [hk, BitVec.toNat_ofNat, Nat.mod_eq_of_lt hc]⟩
    · rintro ⟨k, rfl⟩
      exact ⟨(m.code k).isLt, k, by rw [BitVec.ofNat_toNat, BitVec.setWidth_eq]⟩

/-- Settles O43: twelve of the 64 values are assigned, so the others are 52. -/
theorem fiftyTwoOpcodesUnassigned : Obligations.FiftyTwoOpcodesUnassigned := by
  intro m hm
  have hassigned : (List.range 64).countP (fun c => (m.mnemonicOf (BitVec.ofNat 6 c)).isSome) = 12 := by
    rw [List.countP_eq_length_filter, (filter_assigned_perm hm).length_eq]
    rfl
  have hall := (List.range 64).length_eq_countP_add_countP fun c => (m.mnemonicOf (BitVec.ofNat 6 c)).isSome
  simp only [Bool.not_eq_true, Option.isSome_eq_false_iff, Bool.decide_eq_true, List.length_range] at hall
  omega

/-! ## The encoder on integers of any size -/

theorem encodeOperands_r3_mem {k : Mnemonic} (hk : k ∈ [Mnemonic.add, .sub, .and, .ldr, .str]) (m : OpcodeMap)
    (d a b : Int) : encodeOperands m k [d, a, b] = some (packR3 (m.code k) d a b) := by
  cases k with
  | add | sub | and | ldr | str => rfl
  | nop | orri | lsl | asr | b | beq | blt => simp at hk

theorem encodeOperands_ri {k : Mnemonic} (hk : k ∈ [Mnemonic.orri, .lsl, .asr]) (m : OpcodeMap) (d a v : Int) :
    encodeOperands m k [d, a, v] = some (packRI (m.code k) d a v) := by
  cases k with
  | orri | lsl | asr => rfl
  | nop | add | sub | and | b | beq | blt | ldr | str => simp at hk

theorem encodeOperands_off {k : Mnemonic} (hk : k ∈ [Mnemonic.b, .beq, .blt]) (m : OpcodeMap) (v : Int) :
    encodeOperands m k [v] = some (packOff (m.code k) v) := by
  cases k with
  | b | beq | blt => rfl
  | nop | add | sub | and | orri | lsl | asr | ldr | str => simp at hk

/-- A packed R3 or MEM word has its opcode, and its padding is zero. -/
theorem packR3_opcode_padding (op : BitVec 6) (d a b : Int) :
    opcodeField (packR3 op d a b) = op ∧ (packR3 op d a b).toNat % 2 ^ 11 = 0 := by
  have hpack := packR3_toNat op d a b
  have hd := trunc_bounds 5 d
  have ha := trunc_bounds 5 a
  have hb := trunc_bounds 5 b
  exact ⟨opcodeField_of_toNat (by omega) (by omega), by omega⟩

theorem opcodeField_packNone (op : BitVec 6) : opcodeField (packNone op) = op := by
  have hpack := packNone_toNat op
  exact opcodeField_of_toNat (by omega) (by omega)

theorem opcodeField_packRI (op : BitVec 6) (d a v : Int) : opcodeField (packRI op d a v) = op := by
  have hpack := packRI_toNat op d a v
  have hd := trunc_bounds 5 d
  have ha := trunc_bounds 5 a
  have hv := trunc_bounds 16 v
  exact opcodeField_of_toNat (by omega) (by omega)

theorem opcodeField_packOff (op : BitVec 6) (v : Int) : opcodeField (packOff op v) = op := by
  have hpack := packOff_toNat op v
  have hv := trunc_bounds 26 v
  exact opcodeField_of_toNat (by omega) (by omega)

/-- Whatever its operands, a word the encoder makes has its mnemonic's opcode and zero padding. -/
theorem fields_of_encodeOperands {m : OpcodeMap} {k : Mnemonic} {vs : List Int} {w : Word}
    (h : encodeOperands m k vs = some w) : opcodeField w = m.code k ∧ padField k.format w = 0 := by
  unfold encodeOperands at h
  split at h
  case h_1 hk =>
    cases h
    rw [hk, padField_none, packNone_toNat]
    exact ⟨opcodeField_packNone _, Nat.mul_mod_left _ _⟩
  case h_2 d a b hk =>
    cases h
    rw [hk, padField_r3]
    exact packR3_opcode_padding _ d a b
  case h_3 hk => cases h; rw [hk]; exact ⟨opcodeField_packRI _ _ _ _, rfl⟩
  case h_4 hk => cases h; rw [hk]; exact ⟨opcodeField_packOff _ _, rfl⟩
  case h_5 d a b hk =>
    cases h
    rw [hk, padField_mem]
    exact packR3_opcode_padding _ d a b
  case h_6 => cases h

/-- The operand list of an instruction encodes to its word. -/
theorem encodeOperands_operands (m : OpcodeMap) (i : Instr) :
    encodeOperands m i.mnemonic i.operands = some (encodeWith m i) := by
  cases i <;> rfl

/-- Settles O44: the packed words as numbers, and `decodeAfterEncode` for the range. -/
theorem encoderTruncates : Obligations.EncoderTruncates := by
  refine ⟨fun m => ⟨_, rfl, packNone_toNat _⟩, fun m k d a b hk => ?_, fun m k d a v hk => ?_,
    fun m k v hk => ?_, fun P i hP hwf => ?_⟩
  · exact ⟨_, encodeOperands_r3_mem hk m d a b, packR3_toNat _ d a b⟩
  · exact ⟨_, encodeOperands_ri hk m d a v, packRI_toNat _ d a v⟩
  · exact ⟨_, encodeOperands_off hk m v, packOff_toNat _ v⟩
  · exact ⟨_, encodeOperands_operands P.opcodes i, decodeAfterEncode P i hP hwf⟩

/-- Settles O45: six closed words, evaluated. -/
theorem sampleWordsDecode : Obligations.SampleWordsDecode := by
  refine ⟨?_, ?_, ?_, ?_, ?_, ?_⟩ <;> decide

end Sys2Proof
end

section
/-! PROOFS, the family 20_memory, the word accesses: the four addresses of an access are distinct (R31), so each stored
byte is read back at its own address (R35, R36), which the overlap (R32) and the round trip (44_load_store R123) read
off. -/

namespace Sys2Proof.Machine

open Sys2Proof.Rules

/-! ## Addresses -/

/-- Nearby bytes have different addresses. -/
theorem byteAddr_inj (ea : Word) {i j : Nat} (hi : i < 2 ^ 32) (hj : j < 2 ^ 32) :
    byteAddr ea i = byteAddr ea j ↔ i = j := by
  rw [byteAddr_eq, byteAddr_eq]
  omega

/-- The bytes of the access one address up. -/
theorem byteAddr_add_one (ea : Word) (i : Nat) : byteAddr (ea + 1) i = byteAddr ea (i + 1) := by
  have hone : (ea + 1).toNat = (ea.toNat + 1) % 2 ^ 32 := BitVec.toNat_add ea 1
  rw [byteAddr_eq, byteAddr_eq, hone]
  omega

theorem State.ea_comm (s : State) (ra rb : Reg) : s.ea ra rb = s.ea rb ra := by
  rw [State.ea, State.ea, Int.add_comm]

theorem wordAddrs_nodup (ea : Word) : (wordAddrs ea).Nodup := by
  simp [wordAddrs, byteAddr_inj]

/-- Settles O29: the address arithmetic is addition modulo `2^32`. -/
theorem effectiveAddressWraps : Obligations.EffectiveAddressWraps := by
  refine ⟨fun s ra rb => ⟨toNat_narrow _, s.ea_comm ra rb⟩, fun ea => ⟨fun i => ?_, wordAddrs_nodup ea⟩⟩
  rw [byteAddr_eq, trunc]
  push_cast
  rfl

/-! ## The bytes of a word -/

/-- A word read is its four bytes, the most significant first. -/
theorem State.memRead_toNat (s : State) (ea : Word) :
    (s.memRead ea).toNat = (s.byte (byteAddr ea 0)).toNat * 2 ^ 24 + (s.byte (byteAddr ea 1)).toNat * 2 ^ 16 +
      (s.byte (byteAddr ea 2)).toNat * 2 ^ 8 + (s.byte (byteAddr ea 3)).toNat := by
  have happend : (s.memRead ea).toNat = (s.byte (byteAddr ea 0) ++ s.byte (byteAddr ea 1) ++ s.byte (byteAddr ea 2) ++
    s.byte (byteAddr ea 3)).toNat := rfl
  rw [happend, toNat_append', toNat_append', toNat_append']
  omega

section
variable (s : State) (ea v : Word)

theorem State.memWrite_byte_zero : ((s.memWrite ea v).byte (byteAddr ea 0)).toNat = v.toNat / 2 ^ 24 := by
  have hlt := v.isLt
  simp only [State.memWrite_byte, byteAddr_inj, BitVec.extractLsb'_toNat, Nat.shiftRight_eq_div_pow, Nat.reducePow,
    Nat.reduceLT, Nat.reduceEqDiff, if_false, if_true]
  omega

theorem State.memWrite_byte_one : ((s.memWrite ea v).byte (byteAddr ea 1)).toNat = v.toNat / 2 ^ 16 % 256 := by
  simp [State.memWrite_byte, byteAddr_inj, Nat.shiftRight_eq_div_pow]

theorem State.memWrite_byte_two : ((s.memWrite ea v).byte (byteAddr ea 2)).toNat = v.toNat / 2 ^ 8 % 256 := by
  simp [State.memWrite_byte, byteAddr_inj, Nat.shiftRight_eq_div_pow]

theorem State.memWrite_byte_three : ((s.memWrite ea v).byte (byteAddr ea 3)).toNat = v.toNat % 256 := by
  simp [State.memWrite_byte]

/-- Every address outside the four reads as before. -/
theorem State.memWrite_byte_other {a : Nat} (ha : a ∉ wordAddrs ea) : (s.memWrite ea v).byte a = s.byte a := by
  simp only [wordAddrs, List.mem_cons, List.not_mem_nil, or_false, not_or] at ha
  obtain ⟨h0, h1, h2, h3⟩ := ha
  rw [State.memWrite_byte, if_neg h3, if_neg h2, if_neg h1, if_neg h0]

/-- `WRITTEN` grows by the four addresses. -/
theorem State.mem_written_memWrite (a : Nat) :
    a ∈ (s.memWrite ea v).written ↔ a ∈ s.written ∨ a ∈ wordAddrs ea := by
  simp only [State.mem_memWrite_written, wordAddrs, List.mem_cons, List.not_mem_nil, or_false]
  tauto

end

/-- Settles O30: the four bytes at their own addresses, and the frame. -/
theorem wordAccessIsBigEndian : Obligations.WordAccessIsBigEndian :=
  ⟨State.memRead_toNat, fun s ea v =>
    ⟨s.memWrite_byte_zero ea v, s.memWrite_byte_one ea v, s.memWrite_byte_two ea v, s.memWrite_byte_three ea v,
      fun _ ha => s.memWrite_byte_other ea v ha, s.mem_written_memWrite ea v⟩⟩

/-! ## Reading what was stored -/

/-- The byte after the last of a word is none of its four. -/
theorem byteAddr_four_not_mem (ea : Word) : byteAddr ea 4 ∉ wordAddrs ea := by
  simp [wordAddrs, byteAddr_inj]

/-- Settles O31: three of the four bytes one address up are stored ones, the fourth is the old byte at `EA + 4`. -/
theorem overlappingReadAfterStore : Obligations.OverlappingReadAfterStore := by
  intro s ea v
  rw [State.memRead_toNat]
  simp only [byteAddr_add_one, Nat.reduceAdd, State.memWrite_byte_one, State.memWrite_byte_two,
    State.memWrite_byte_three, State.memWrite_byte_other s ea v (byteAddr_four_not_mem ea)]
  omega

/-- A word stored is read back. -/
theorem State.memRead_memWrite (s : State) (ea v : Word) : (s.memWrite ea v).memRead ea = v := by
  apply BitVec.eq_of_toNat_eq
  rw [State.memRead_toNat, State.memWrite_byte_zero, State.memWrite_byte_one, State.memWrite_byte_two,
    State.memWrite_byte_three]
  omega

/-- Settles O32: the store changes no register, so the load has the same effective address and reads the word back. -/
theorem storeThenLoadReturnsTheValue : Obligations.StoreThenLoadReturnsTheValue := by
  intro rd rx ra rb s
  refine ⟨_, _, exec_str s rd ra rb, exec_ldr _ rx ra rb, ?_⟩
  rw [State.advance_reg, State.reg_setReg_same, State.advance_memRead, State.advance_ea, State.memWrite_ea,
    State.memRead_memWrite]

/-- Settles O33: STR alone has a store among its writes. -/
theorem onlyStoresChangeMemory : Obligations.OnlyStoresChangeMemory := by
  intro i s
  cases i with
  | str rd ra rb =>
    refine ⟨_, exec_str s rd ra rb, fun h => (nomatch h), ?_⟩
    rintro ea ⟨⟩
    simp only [State.advance_byte, State.advance_written]
    exact ⟨fun a ha => s.memWrite_byte_other _ _ ha, s.mem_written_memWrite _ _⟩
  | nop | add | sub | and | orri | lsl | asr | b | beq | blt | ldr =>
    exact ⟨_, exec_eq_apply_effect _ s, fun _ => ⟨fun _ => rfl, rfl, rfl⟩, fun _ h => nomatch h⟩

end Sys2Proof.Machine
end

section
/-! PROOFS, the twelve instructions (40_engine_nop R87, 41_alu R95 to R97, 42_alu_immediate R101 to R104, 43_branch R111
to R113, 44_load_store R121, R122). Their encoding clauses are `encodedR3`, `encodedRI` and `encodedOff`, what the six ALU
instructions share is a fact about `aluEnd`, and so each statement is left with its result and its V. -/

namespace Sys2Proof.Machine

open Sys2Proof.Rules

/-! ## NOP and the branches -/

/-- An advance of the pc changes nothing else. -/
theorem advance_frame (s : State) (d : Int) :
    RegsKept s (s.advance d) ∧ (s.advance d).flags = s.flags ∧ MemoryKept s (s.advance d) :=
  ⟨fun _ => rfl, rfl, fun _ => rfl, rfl, rfl⟩

/-- Settles O10: the word's fields, and an advance by nothing more than one. -/
theorem nopOnlyAdvances : Obligations.NopOnlyAdvances :=
  ⟨fun _ _ hP hw => decodeWith_nop hP hw, fun s => ⟨_, exec_nop s, by simp, advance_frame s 0⟩⟩

/-- Settles O17: the displacement is the offset. -/
theorem branchAlwaysTaken : Obligations.BranchAlwaysTaken :=
  ⟨encodedB, fun offset s => ⟨_, exec_b s offset, rfl, advance_frame s offset⟩⟩

/-- Settles O18: the displacement is the offset or 0 by Z. -/
theorem branchIfZ : Obligations.BranchIfZ := by
  refine ⟨encodedBEq, fun offset s => ⟨_, exec_beq s offset, fun hz => ?_, fun hz => ?_, advance_frame s _⟩⟩
  · simp [branchDelta, hz]
  · simp [branchDelta, hz]

/-- Settles O19: the displacement is the offset or 0 by N against V. -/
theorem branchIfNDiffersFromV : Obligations.BranchIfNDiffersFromV := by
  refine ⟨encodedBLt, fun offset s => ⟨_, exec_blt s offset, fun hnv => ?_, fun hnv => ?_, advance_frame s _⟩⟩
  · simp [branchDelta, hnv]
  · simp [branchDelta, hnv]

/-! ## The ALU instructions -/

/-- Whatever the result and V, the end of an ALU instruction has the shape that all six share. -/
theorem aluShape_aluEnd (s : State) (rd : Reg) (r : Word) (v : Option Bool) : AluShape rd s (s.aluEnd rd r v) := by
  refine ⟨fun k hk => s.aluEnd_reg_other r v hk, ?_, rfl, s.aluEnd_pc rd r v, fun _ => rfl, rfl, rfl⟩
  rw [State.aluEnd_reg_same]
  exact ⟨negative_iff r, zero_iff r⟩

/-- Settles O11: the result narrowed, and V as R92 writes it. -/
theorem addResultFlagsFrame : Obligations.AddResultFlagsFrame := by
  refine ⟨encodedAdd, fun rd ra rb s => ⟨_, exec_add s rd ra rb, ?_, ?_, aluShape_aluEnd s rd _ _⟩⟩
  · rw [State.aluEnd_reg_same, toInt_narrow]
  · rw [State.aluEnd_reg_same, State.aluEnd_flags_v, Option.getD_some, vAdd_iff]

/-- Settles O12: the result narrowed, and V the free value of the same result. -/
theorem subResultFlagsFrame : Obligations.SubResultFlagsFrame := by
  refine ⟨encodedSub, fun rd ra rb s => ⟨_, exec_sub s rd ra rb, ?_, ?_, aluShape_aluEnd s rd _ _⟩⟩
  · rw [State.aluEnd_reg_same, toInt_narrow]
  · rw [State.aluEnd_reg_same, State.aluEnd_flags_v, Option.getD_some]

/-- Settles O13: bit by bit. -/
theorem andResultFlagsFrame : Obligations.AndResultFlagsFrame := by
  refine ⟨encodedAnd, fun rd ra rb s => ⟨_, exec_and s rd ra rb, fun j _ => ?_, rfl, aluShape_aluEnd s rd _ _⟩⟩
  rw [State.aluEnd_reg_same, BitVec.getLsbD_and]

/-- The floor of a number of `n` bits and a sign by a power of two past them: the sign alone is left. -/
theorem ediv_two_pow_of_range {n j : Nat} {v : Int} (hlo : -2 ^ n ≤ v) (hhi : v < 2 ^ n) (hj : n ≤ j) :
    v / 2 ^ j = if v < 0 then -1 else 0 := by
  have hpow : (2 : Int) ^ n ≤ 2 ^ j := pow_le_pow_right₀ (by norm_num) hj
  rw [Int.ediv_eq_iff_of_pos (by positivity)]
  split <;> constructor <;> omega

/-- Settles O14: bit by bit, and an immediate of 16 bits is its sign alone from bit 15 up. -/
theorem orriResultFlagsFrame : Obligations.OrriResultFlagsFrame := by
  refine ⟨encodedOrri, fun rd ra imm s hlo hhi =>
    ⟨_, exec_orri s rd ra imm, fun j hj => ?_, fun j hj => ?_, rfl, aluShape_aluEnd s rd _ _⟩⟩
  · rw [State.aluEnd_reg_same, BitVec.getLsbD_or, immWord, getLsbD_narrow imm hj]
  · rw [ediv_two_pow_of_range (n := 15) (by omega) (by omega) hj]
    split <;> omega

/-- Settles O15: the two halves of the amount are the two halves of the definition. -/
theorem lslResultFlagsFrame : Obligations.LslResultFlagsFrame := by
  refine ⟨encodedLsl, fun rd ra sh s =>
    ⟨_, exec_lsl s rd ra sh, fun hsh => ?_, fun hsh => ?_, rfl, aluShape_aluEnd s rd _ _⟩⟩
  · rw [State.aluEnd_reg_same, lslResult_of_nonneg _ hsh, toInt_narrow]
  · rw [State.aluEnd_reg_same, lslResult_of_neg _ hsh]

/-- The result of ASR is the floor itself: it is in range. -/
theorem toInt_asrResult (a : Word) {sh : Int} (h : 0 ≤ sh) : (asrResult a sh).toInt = a.toInt / 2 ^ sh.toNat := by
  rw [asrResult_eq_sshiftRight a h, BitVec.toInt_sshiftRight, Int.shiftRight_eq_div_pow]
  push_cast
  rfl

/-- Settles O16: the two inequalities say that the result is the floor. -/
theorem asrResultFlagsFrame : Obligations.AsrResultFlagsFrame := by
  refine ⟨encodedAsr, fun rd ra sh s =>
    ⟨_, exec_asr s rd ra sh, fun hsh => ?_, fun hsh => ?_, ?_, aluShape_aluEnd s rd _ _⟩⟩
  · have hpos : (0 : Int) < 2 ^ sh.toNat := by positivity
    rw [State.aluEnd_reg_same, toInt_asrResult _ hsh]
    exact ⟨Int.ediv_mul_le _ hpos.ne', Int.lt_ediv_add_one_mul_self _ hpos⟩
  · rw [State.aluEnd_reg_same, asrResult_of_neg _ hsh]
  · rw [State.aluEnd_reg_same, State.aluEnd_flags_v, Option.getD_some]

/-! ## LDR and STR -/

/-- Settles O20: the register takes the word read, whose bytes are `State.memRead_toNat`. -/
theorem ldrResultFrame : Obligations.LdrResultFrame := by
  refine ⟨encodedLdr, fun rd ra rb s => ⟨_, exec_ldr s rd ra rb, ?_, fun k hk => s.reg_setReg_other _ hk, rfl, ?_,
    fun _ => rfl, rfl, rfl⟩⟩
  · rw [State.advance_reg, State.reg_setReg_same, toInt_eq_signed _ (by decide), State.memRead_toNat]
    push_cast
    rfl
  · rw [State.advance_pc, State.setReg_pc, Int.add_zero]

/-- Settles O21: the store's bytes and its frame, and the advance changes the pc alone. -/
theorem strStoresFrame : Obligations.StrStoresFrame := by
  refine ⟨encodedStr, fun rd ra rb s => ⟨_, exec_str s rd ra rb, ?_⟩⟩
  simp only [State.advance_byte, State.advance_written]
  refine ⟨s.memWrite_byte_zero _ _, s.memWrite_byte_one _ _, s.memWrite_byte_two _ _, s.memWrite_byte_three _ _,
    fun _ ha => s.memWrite_byte_other _ _ ha, s.mem_written_memWrite _ _, fun k => ?_, ?_, ?_, ?_⟩
  · rw [State.advance_reg, State.memWrite_reg]
  · rw [State.advance_flags, State.memWrite_flags]
  · rw [State.advance_pc, State.memWrite_pc, Int.add_zero]
  · rw [State.advance_imem, State.memWrite_imem]

/-! ## Shifts, bit by bit -/

/-- Settles O26: the result is the library's shift of the pattern. -/
theorem lslMovesBits : Obligations.LslMovesBits := by
  intro rd ra sh s hsh
  refine ⟨_, exec_lsl s rd ra sh, ?_⟩
  rw [State.aluEnd_reg_same, State.aluEnd_flags_z, State.aluEnd_flags_n, lslResult_eq_shiftLeft _ hsh]
  refine ⟨fun j hj => ?_, fun hwide => ?_, ?_⟩
  · simp only [BitVec.getLsbD_shiftLeft, hj, decide_true, Bool.true_and, ← decide_not, not_lt]
  · rw [BitVec.shiftLeft_eq_zero (by omega)]
    exact ⟨rfl, rfl, rfl⟩
  · rintro rfl
    exact BitVec.shiftLeft_zero _

/-- Settles O27: the result is the library's arithmetic shift of the pattern, and the floor as a number. -/
theorem asrCopiesTheSign : Obligations.AsrCopiesTheSign := by
  intro rd ra sh s hsh
  refine ⟨_, exec_asr s rd ra sh, ?_⟩
  rw [State.aluEnd_reg_same, State.aluEnd_flags_n, negative_iff, toInt_asrResult _ hsh]
  refine ⟨fun j hj => ?_, fun hwide => ?_, ?_, ?_⟩
  · rw [asrResult_eq_sshiftRight _ hsh, BitVec.getLsbD_sshiftRight, BitVec.msb_eq_getLsbD_last]
    simp [hj, Nat.add_comm]
  · exact ediv_two_pow_of_range (n := 31) (BitVec.le_toInt _) BitVec.toInt_lt (by omega)
  · have hpos : (0 : Int) < 2 ^ sh.toNat := by positivity
    rw [← not_le, ← not_le, Int.ediv_nonneg_iff_of_pos hpos]
  · rintro rfl
    exact (asrResult_eq_sshiftRight _ hsh).trans BitVec.sshiftRight_zero

end Sys2Proof.Machine
end

section
/-! PROOFS, the flags: V after ADD by the ranges of the operands (41_alu R92), and the table of writers and readers
(10_state R19), which is one more fact about reads (`effect_withFlags`) and writes (`Effect.apply_withFlags`). -/

namespace Sys2Proof.Machine

open Sys2Proof.Rules

/-! ## V after ADD -/

/-- The wrapped sum of two values in range misses the exact one by `2^32` at most. -/
theorem wrap32_add_of_range {a b : Int} (ha : -2 ^ 31 ≤ a ∧ a < 2 ^ 31) (hb : -2 ^ 31 ≤ b ∧ b < 2 ^ 31) :
    wrap32 (a + b) =
      if a + b < -2 ^ 31 then a + b + 2 ^ 32 else if a + b < 2 ^ 31 then a + b else a + b - 2 ^ 32 := by
  simp only [wrap32, signed, trunc]
  split_ifs <;> omega

theorem toInt_range (w : Word) : -2 ^ 31 ≤ w.toInt ∧ w.toInt < 2 ^ 31 := ⟨BitVec.le_toInt w, BitVec.toInt_lt⟩

/-- Settles O25: by where the exact sum lies, below, in or above the range. -/
theorem addOverflowMissesTwoNegatives : Obligations.AddOverflowMissesTwoNegatives := by
  intro rd ra rb s
  refine ⟨_, exec_add s rd ra rb, ?_⟩
  have ha := toInt_range (s.reg ra)
  have hb := toInt_range (s.reg rb)
  rw [State.aluEnd_reg_same, State.aluEnd_flags_v, Option.getD_some, ← Bool.not_eq_true, vAdd_iff, toInt_narrow,
    wrap32_add_of_range ha hb]
  split_ifs <;> omega

/-! ## Writers and readers -/

/-- N, Z and V are written by the instructions of R19's table alone. -/
theorem apply_effect_flags (i : Instr) (s : State) :
    (writesNZ i = none → ((effect s i).apply s).flags.n = s.flags.n ∧ ((effect s i).apply s).flags.z = s.flags.z) ∧
      (writesV i = false → ((effect s i).apply s).flags.v = s.flags.v) := by
  cases i with
  | add | sub | asr => exact ⟨fun h => (nomatch h), fun h => nomatch h⟩
  | and | orri | lsl => exact ⟨fun h => (nomatch h), fun _ => rfl⟩
  | nop | b | beq | blt | ldr | str => exact ⟨fun _ => ⟨rfl, rfl⟩, fun _ => rfl⟩

/-- Flags that give the same displacement are not told apart by the reads. -/
theorem effect_withFlags {i : Instr} {s : State} {f : Flags} (h : delta { s with flags := f } i = delta s i) :
    effect { s with flags := f } i = effect s i :=
  effect_congr (fun _ _ => rfl) h fun _ => rfl

/-- The flags at the start show in the flags at the end alone. -/
theorem Effect.apply_withFlags (e : Effect) (s : State) (f : Flags) :
    e.apply { s with flags := f } = { e.apply s with flags := (e.apply { s with flags := f }).flags } := by
  cases e <;> rfl

/-- Only B.EQ and B.LT have a displacement that depends on flags. -/
theorem delta_withFlags {i : Instr} (hbeq : ∀ o, i ≠ .beq o) (hblt : ∀ o, i ≠ .blt o) (s : State) (f : Flags) :
    delta { s with flags := f } i = delta s i := by
  cases i with
  | beq o => exact absurd rfl (hbeq o)
  | blt o => exact absurd rfl (hblt o)
  | _ => rfl

/-- A jump with the same displacement carries the flags along. -/
theorem exec_goto_withFlags {i : Instr} {s : State} {f : Flags} (hgoto : effect s i = .goto (delta s i))
    (h : delta { s with flags := f } i = delta s i) :
    ∃ t, exec i s = .next t ∧ exec i { s with flags := f } = .next { t with flags := f } := by
  refine ⟨(effect s i).apply s, exec_eq_apply_effect i s, ?_⟩
  rw [exec_eq_apply_effect, effect_withFlags h, hgoto]
  rfl

/-- Settles O23: the writers by the table; of the readers, the two branches by what their displacement depends on. -/
theorem flagWritersAndReaders : Obligations.FlagWritersAndReaders := by
  refine ⟨fun i s => ⟨_, exec_eq_apply_effect i s, apply_effect_flags i s⟩, fun i s f hbeq hblt => ?_,
    fun o s f hz => ?_, fun o s f hn hv => ?_⟩
  · refine ⟨_, _, exec_eq_apply_effect i s, exec_eq_apply_effect i _, ?_⟩
    rw [effect_withFlags (delta_withFlags hbeq hblt s f)]
    exact Effect.apply_withFlags _ s f
  · exact exec_goto_withFlags rfl (by simp only [delta, hz])
  · exact exec_goto_withFlags rfl (by simp only [delta, hn, hv])

end Sys2Proof.Machine
end

section
/-! PROOFS, the cycle and its one stop (40_engine_nop R81, R86): what a cycle answers is read off the fetch and the
decoding, since every instruction completes. -/

namespace Sys2Proof.Machine

open Sys2Proof.Rules

/-! ## What a cycle answers -/

/-- Settles O7: an instruction's writes answer a next state. -/
theorem everyInstructionCompletes : Obligations.EveryInstructionCompletes :=
  fun i s => ⟨_, exec_eq_apply_effect i s⟩

theorem cycle_of_fetch_none {P : Params} {s : State} (h : s.fetch = none) : cycle P s = .next s :=
  cycle_of_halted (s.fetch_eq_none_iff.1 h)

theorem cycle_of_decode_error {P : Params} {s : State} {w : Word} {e : Reject} (hf : s.fetch = some w)
    (hd : decodeWith P w = .error e) : cycle P s = .fault (.invalidStop s.pc w) := by
  simp only [cycle, hf, hd]

theorem cycle_of_decode_ok {P : Params} {s : State} {w : Word} {i : Instr} (hf : s.fetch = some w)
    (hd : decodeWith P w = .ok i) : cycle P s = .next ((effect s i).apply s) := by
  rw [cycle_eq_exec hf hd, exec_eq_apply_effect]

/-- Settles O5: a cycle by its fetch and its decoding. -/
theorem stepRunsTheDecodedInstruction : Obligations.StepRunsTheDecodedInstruction :=
  ⟨fun _ _ => cycle_of_fetch_none, fun _ _ _ _ => cycle_eq_exec, fun _ _ _ _ => cycle_of_decode_error,
    fun _ _ _ hf hd => cycle_eq_exec (P := referenceParams) hf hd, fun _ => rfl⟩

/-! ## The INVALID stop -/

theorem State.status_of_decode_error {P : Params} {s : State} {w : Word} {e : Reject} (hf : s.fetch = some w)
    (hd : decodeWith P w = .error e) : s.status P = .invalid := by
  simp only [State.status, hf, hd]

theorem State.status_of_decode_ok {P : Params} {s : State} {w : Word} {i : Instr} (hf : s.fetch = some w)
    (hd : decodeWith P w = .ok i) : s.status P = .running := by
  simp only [State.status, hf, hd]

/-- A cycle stops exactly on a word that does not decode. -/
theorem cycle_eq_fault_iff (P : Params) (s : State) (f : Fault) :
    cycle P s = .fault f ↔ ∃ w e, s.fetch = some w ∧ decodeWith P w = .error e ∧ f = .invalidStop s.pc w := by
  constructor
  · intro h
    cases hf : s.fetch with
    | none => rw [cycle_of_fetch_none hf] at h; cases h
    | some w =>
      cases hd : decodeWith P w with
      | error e => rw [cycle_of_decode_error hf hd] at h; cases h; exact ⟨w, e, rfl, hd, rfl⟩
      | ok i => rw [cycle_of_decode_ok hf hd] at h; cases h
  · rintro ⟨w, e, hf, hd, rfl⟩
    exact cycle_of_decode_error hf hd

/-- Settles O6: the status by the three things that a fetch and its decoding can come to. -/
theorem invalidStopExactlyOnUndecodableWord : Obligations.InvalidStopExactlyOnUndecodableWord := by
  intro P s
  refine ⟨cycle_eq_fault_iff P s, ?_⟩
  cases hf : s.fetch with
  | none =>
    have hhalted := s.fetch_eq_none_iff.1 hf
    have hstatus := (s.status_eq_halted_iff P).2 hf
    simp [cycle_of_fetch_none hf, hstatus, s.running_eq_not_halted, hhalted]
  | some w =>
    have hrunning : s.running = true := s.running_iff.2 (pc_of_fetch hf)
    cases hd : decodeWith P w with
    | error e => simp [cycle_of_decode_error hf hd, State.status_of_decode_error hf hd]
    | ok i => simp [cycle_of_decode_ok hf hd, State.status_of_decode_ok hf hd, hrunning]

end Sys2Proof.Machine
end

section
/-! PROOFS, reset and the runs from it: the reset values (10_state R27), the range of the pc (R16), and what every state of
a run from reset meets. -/

namespace Sys2Proof.Machine

open Sys2Proof.Rules

/-! ## Reset -/

@[simp] theorem State.loaded_reg (program : List Word) (k : Reg) : (State.loaded program).reg k = 0 := by
  simp [State.reg, State.loaded, State.reset]

/-- With a program loaded, every piece of state is at its reset value. -/
theorem loaded_resetValues (program : List Word) :
    (∀ k : Reg, ((State.loaded program).reg k).toInt = 0) ∧ (State.loaded program).pc = 0 ∧
      (State.loaded program).flags.n = false ∧ (State.loaded program).flags.z = false ∧
      (State.loaded program).flags.c = false ∧ (State.loaded program).flags.v = false ∧
      (∀ a : Nat, (State.loaded program).byte a = 0) ∧ (State.loaded program).written = [] ∧
      (State.loaded program).imem = program :=
  ⟨fun k => by rw [State.loaded_reg]; rfl, rfl, rfl, rfl, rfl, rfl, fun _ => rfl, rfl, rfl⟩

/-- Settles O1: the reset event and `State.reset` are loads too. -/
theorem resetValues : Obligations.ResetValues := by
  rintro program s (rfl | ⟨u, rfl, rfl⟩ | ⟨rfl, rfl⟩)
  · exact loaded_resetValues program
  · exact loaded_resetValues u.imem
  · exact loaded_resetValues []

theorem loaded_inv (program : List Word) : (State.loaded program).Inv where
  memWf := rfl
  writtenWf := rfl
  unwritten _ _ := rfl
  carry := rfl

theorem loaded_pcInRange (program : List Word) : (State.loaded program).PcInRange := by
  rw [State.PcInRange, State.loaded_pc]
  omega

/-- Settles O36: `State.reset` has the empty program loaded. -/
theorem resetMeetsTheInvariant : Obligations.ResetMeetsTheInvariant :=
  ⟨loaded_inv [], loaded_pcInRange [], fun program => ⟨loaded_inv program, loaded_pcInRange program⟩⟩

/-! ## The range of the pc -/

/-- A displacement that a word can hold is in the range of the offset field. -/
theorem delta_bounds {i : Instr} (h : i.wellFormed = true) (s : State) :
    -2 ^ 25 ≤ delta s i ∧ delta s i < 2 ^ 25 := by
  cases i with
  | b o => exact (inSignedRange_iff 26 o).1 h
  | beq o | blt o =>
    have ho := (inSignedRange_iff 26 o).1 h
    rw [delta]
    split
    · exact ho
    · decide
  | nop | add | sub | and | orri | lsl | asr | ldr | str =>
    exact (by decide : -2 ^ 25 ≤ (0 : Int) ∧ (0 : Int) < 2 ^ 25)

/-- A halted engine keeps its pc; a running one is within the program and moves by a displacement in range. -/
theorem cycle_keeps_pcInRange {P : Params} {s t : State} (hs : s.PcInRange ∨ s.running = true)
    (h : cycle P s = .next t) : t.PcInRange := by
  obtain ⟨hf, rfl⟩ | ⟨w, i, hf, hd, rfl⟩ := cycle_next_effect h
  · refine hs.resolve_right fun hrun => ?_
    rw [t.running_eq_not_halted, t.fetch_eq_none_iff.1 hf] at hrun
    cases hrun
  · have hpc := pc_of_fetch hf
    have hdelta := delta_bounds (wellFormed_of_decodeWith hd) s
    rw [State.PcInRange, Effect.apply_pc, Effect.apply_imem, effect_delta]
    omega

/-- Settles O37: `cycle_keeps_pcInRange` for all states. -/
theorem everyStepKeepsThePcInRange : Obligations.EveryStepKeepsThePcInRange :=
  fun _ _ _ => cycle_keeps_pcInRange

/-- Settles O38: the three hold at reset and every cycle keeps each. -/
theorem reachableStatesMeetTheInvariant : Obligations.ReachableStatesMeetTheInvariant := by
  intro P program k t h
  refine run_keeps (I := fun s => s.Inv ∧ s.PcInRange ∧ s.imem = program) (fun s u hs hc => ?_) k
    ⟨loaded_inv program, loaded_pcInRange program, rfl⟩ h
  obtain ⟨hinv, hpc, himem⟩ := hs
  exact ⟨cycle_keeps_inv hinv hc, cycle_keeps_pcInRange (.inl hpc) hc, (cycle_keeps_imem hc).trans himem⟩

/-! ## The host's actions before and after a run -/

/-- Settles O50: membership in the two lists, the filter dropping the zero registers. -/
theorem readOutOfTheFinalState : Obligations.ReadOutOfTheFinalState := by
  refine ⟨fun s k v => ?_, fun s a v => ?_⟩
  · simp only [State.dumpRegs, List.mem_filter, List.mem_map, List.mem_finRange, true_and, Prod.mk.injEq,
      decide_eq_true_eq]
    constructor
    · rintro ⟨⟨j, rfl, rfl⟩, hv⟩
      exact ⟨rfl, hv⟩
    · rintro ⟨rfl, hv⟩
      exact ⟨⟨k, rfl, rfl⟩, hv⟩
  · simp only [State.dumpMem, List.mem_map, Prod.mk.injEq]
    constructor
    · rintro ⟨b, hb, rfl, rfl⟩
      exact ⟨hb, rfl⟩
    · rintro ⟨ha, rfl⟩
      exact ⟨a, ha, rfl, rfl⟩

/-- The slot that a word is placed in holds it. -/
theorem getElem?_imemWith (imem : List Word) (k : Nat) (w : Word) : (imemWith imem k w)[k]? = some w := by
  have hlen : (imem.take k ++ List.replicate (k - imem.length) 0).length = k := by
    rw [List.length_append, List.length_take, List.length_replicate]
    omega
  rw [imemWith, List.getElem?_append_right hlen.le, hlen, Nat.sub_self, List.getElem?_cons_zero]

/-- Settles O51: the pc of the placed state is the slot's index. -/
theorem placedWordIsFetched : Obligations.PlacedWordIsFetched := by
  intro s nbits w hw
  refine ⟨BitVec.ofNat 32 w, ?_, ?_, fun _ => rfl, rfl, fun _ => rfl, rfl, fun hpc => Int.toNat_of_nonneg hpc⟩
  · rw [BitVec.toNat_ofNat, Nat.mod_eq_of_lt hw]
  · exact (fetch_eq_some_iff _ _).2 ⟨Int.natCast_nonneg _, getElem?_imemWith s.imem s.pc.toNat _⟩

end Sys2Proof.Machine
end

section
/-! PROOFS, whole programs. A program of well-formed instructions, encoded in IMEM, runs as its instructions do
(`cycle_encoded`), whatever the opcodes and the padding policy (30_encoding R59); and what the assembler makes always
decodes (40_engine_nop R86). -/

namespace Sys2Proof.Machine

open Sys2Proof.Rules

/-! ## A program as decoded instructions -/

/-- The instruction at the pc, where the pc is in bounds. -/
def instrAt (program : List Instr) (s : State) : Option Instr :=
  if 0 ≤ s.pc then program[s.pc.toNat]? else none

/-- One cycle of a program that is held as instructions. -/
def decodedCycle (program : List Instr) (s : State) : State :=
  match instrAt program s with
  | none => s
  | some i => (effect s i).apply s

theorem fetch_encoded {f : Instr → Word} {program : List Instr} {s : State} (hs : s.imem = program.map f) :
    s.fetch = (instrAt program s).map f := by
  rw [State.fetch, instrAt, hs]
  split
  · exact List.getElem?_map
  · rfl

theorem mem_of_instrAt {program : List Instr} {s : State} {i : Instr} (h : instrAt program s = some i) :
    i ∈ program := by
  rw [instrAt] at h
  split at h
  · exact List.mem_of_getElem? h
  · cases h

/-- IMEM has no part in a cycle of decoded instructions but to be carried along. -/
theorem decodedCycle_withImem (program : List Instr) (s : State) (imem : List Word) :
    decodedCycle program { s with imem := imem } = { decodedCycle program s with imem := imem } := by
  have hat : instrAt program { s with imem := imem } = instrAt program s := rfl
  simp only [decodedCycle, hat]
  split
  · rfl
  · rw [effect_withImem, Effect.apply_withImem]

theorem iterate_decodedCycle_withImem (program : List Instr) (s : State) (imem : List Word) (k : Nat) :
    (decodedCycle program)^[k] { s with imem := imem } = { (decodedCycle program)^[k] s with imem := imem } := by
  induction k generalizing s with
  | zero => rfl
  | succ k ih => rw [Function.iterate_succ_apply, Function.iterate_succ_apply, decodedCycle_withImem, ih]

section
variable {P : Params} {program : List Instr} {s : State}

/-- A cycle of the encoded program is one of the decoded instructions. -/
theorem cycle_encoded (hP : P.opcodes.Injective) (hwf : ∀ i ∈ program, i.wellFormed = true)
    (hs : s.imem = program.map (encodeWith P.opcodes)) : cycle P s = .next (decodedCycle program s) := by
  have hfetch := fetch_encoded hs
  cases hat : instrAt program s with
  | none =>
    rw [hat] at hfetch
    rw [cycle_of_fetch_none hfetch, decodedCycle, hat]
  | some i =>
    rw [hat] at hfetch
    have hdecode := decodeAfterEncode P i hP (hwf i (mem_of_instrAt hat))
    rw [cycle_of_decode_ok hfetch hdecode, decodedCycle, hat]

/-- A run of the encoded program is one of the decoded instructions. -/
theorem run_encoded (hP : P.opcodes.Injective) (hwf : ∀ i ∈ program, i.wellFormed = true)
    (hs : s.imem = program.map (encodeWith P.opcodes)) (k : Nat) :
    run P k s = .next ((decodedCycle program)^[k] s) := by
  induction k generalizing s with
  | zero => rfl
  | succ k ih =>
    have hcycle := cycle_encoded hP hwf hs
    rw [run_succ_of_next hcycle, ih ((cycle_keeps_imem hcycle).trans hs), Function.iterate_succ_apply]

end

/-- Settles O46: under either setting the run is that of the decoded instructions, which carries IMEM along. -/
theorem opcodeMapDoesNotMatter : Obligations.OpcodeMapDoesNotMatter := by
  intro P Q program s hP hQ hwf hs k
  exact ⟨_, run_encoded hP hwf hs k, by rw [run_encoded hQ hwf rfl, iterate_decodedCycle_withImem]⟩

/-! ## Assembled programs -/

/-- The word of a line is the encoder's. -/
theorem assembleLine_ok {m : OpcodeMap} {line : Asm.Line} {w : Word} (h : Asm.assembleLine m line = .ok w) :
    ∃ k vs, encodeOperands m k vs = some w := by
  unfold Asm.assembleLine at h
  cases hparse : Asm.parseLine line with
  | error e => simp only [hparse] at h; cases h
  | ok p =>
    cases hw : encodeOperands m p.mnemonic p.operands with
    | none => simp only [hparse, hw] at h; cases h
    | some u => simp only [hparse, hw] at h; cases h; exact ⟨_, _, hw⟩

/-- A program the assembler makes has a word a line, each made by the encoder. -/
theorem assemble_ok {m : OpcodeMap} {lines : List Asm.Line} {program : List Word}
    (h : Asm.assemble m lines = .ok program) :
    program.length = lines.length ∧ ∀ w ∈ program, ∃ k vs, encodeOperands m k vs = some w := by
  induction lines generalizing program with
  | nil => cases h; exact ⟨rfl, fun w hw => (nomatch hw)⟩
  | cons line rest ih =>
    unfold Asm.assemble at h
    cases hline : Asm.assembleLine m line with
    | error e => simp only [hline] at h; cases h
    | ok w =>
      cases hrest : Asm.assemble m rest with
      | error e => simp only [hline, hrest] at h; cases h
      | ok ws =>
        simp only [hline, hrest] at h
        cases h
        obtain ⟨hlen, hwords⟩ := ih hrest
        exact ⟨congrArg Nat.succ hlen, List.forall_mem_cons.2 ⟨assembleLine_ok hline, hwords⟩⟩

/-- A state whose program decodes throughout never stops. -/
theorem safe_of_programDecodes {P : Params} {s : State} (h : ProgramDecodes P s.imem) : Safe P s := by
  have hstep : ∀ u : State, ProgramDecodes P u.imem → ∃ t, cycle P u = .next t ∧ ProgramDecodes P t.imem := by
    intro u hu
    cases hf : u.fetch with
    | none => exact ⟨u, cycle_of_fetch_none hf, hu⟩
    | some w =>
      obtain ⟨i, hd⟩ := hu w (mem_imem_of_fetch hf)
      exact ⟨_, cycle_of_decode_ok hf hd, by rwa [Effect.apply_imem]⟩
  intro k
  obtain ⟨t, ht, -⟩ := run_total hstep k h
  exact ⟨t, ht⟩

/-- Settles O47: the words of an assembled program are the encoder's, so they decode, and a run keeps IMEM. -/
theorem assembledProgramsNeverStop : Obligations.AssembledProgramsNeverStop := by
  intro P lines program hP h
  obtain ⟨hlen, hwords⟩ := assemble_ok h
  have hdecodes : ProgramDecodes P program := by
    intro w hw
    obtain ⟨k, vs, hkw⟩ := hwords w hw
    obtain ⟨hop, hpad⟩ := fields_of_encodeOperands hkw
    exact ⟨_, decodeWith_of_fields hP hop hpad⟩
  refine ⟨hlen, hdecodes, ?_⟩
  rintro s rfl
  exact safe_of_programDecodes hdecodes

end Sys2Proof.Machine
end

section
/-! PROOFS, the assembler's lines (30_encoding R70). Of a line the parser sees the first token and the characters of the
others with the white space gone (`parseLine_congr`, `flatten_tokensFrom`), all of it in upper case. -/

namespace Sys2Proof.Asm

/-! ## Case -/

theorem toNat_upper (c : Char) :
    (upper c).toNat = if 97 ≤ c.toNat ∧ c.toNat ≤ 122 then c.toNat - 32 else c.toNat := by
  unfold upper
  split
  · have hvalid : (c.toNat - 32).isValidChar := .inl (by omega)
    rw [Char.toNat_ofNat, if_pos hvalid]
  · rfl

@[simp] theorem upper_upper (c : Char) : upper (upper c) = upper c := by
  have h : ¬(97 ≤ (upper c).toNat ∧ (upper c).toNat ≤ 122) := by
    rw [toNat_upper]
    split <;> omega
  exact if_neg h

theorem isBlank_iff (c : Char) :
    isBlank c = true ↔ c.toNat = 32 ∨ c.toNat = 9 ∨ c.toNat = 13 ∨ c.toNat = 10 := by
  simp only [isBlank, Bool.or_eq_true, beq_iff_eq, ← Char.toNat_inj, or_assoc]
  rfl

/-- White space has no case. -/
theorem upper_of_isBlank {c : Char} (h : isBlank c = true) : upper c = c := by
  rw [isBlank_iff] at h
  exact if_neg (by omega)

/-- A character is white space in either case. -/
@[simp] theorem isBlank_upper (c : Char) : isBlank (upper c) = isBlank c := by
  rw [Bool.eq_iff_iff, isBlank_iff, isBlank_iff, toNat_upper]
  split <;> omega

/-! ## Tokens -/

/-- White space in front of a line makes no token. -/
theorem tokensFrom_nil_blank {c : Char} (hc : isBlank c = true) (l : Line) : tokensFrom [] (c :: l) = tokensFrom [] l := by
  simp [tokensFrom, hc]

/-- A token ends at white space. -/
theorem tokensFrom_token {acc head : Line} (hne : acc ≠ [] ∨ head ≠ []) (hhead : ∀ h ∈ head, isBlank h = false)
    {c : Char} (hc : isBlank c = true) (l : Line) :
    tokensFrom acc (head ++ c :: l) = (acc.reverse ++ head) :: tokensFrom [] l := by
  induction head generalizing acc with
  | nil =>
    have hacc : acc ≠ [] := hne.resolve_right fun h => h rfl
    simp [tokensFrom, hc, hacc]
  | cons h t ih =>
    rw [List.forall_mem_cons] at hhead
    rw [List.cons_append, tokensFrom, if_neg (by simp [hhead.1]), ih (.inl (List.cons_ne_nil _ _)) hhead.2]
    simp

/-- The tokens of a line, put together, are its characters that are no white space. -/
theorem flatten_tokensFrom (acc l : Line) :
    (tokensFrom acc l).flatten = acc.reverse ++ l.filter fun c => !isBlank c := by
  induction l generalizing acc with
  | nil => by_cases hacc : acc = [] <;> simp [tokensFrom, hacc]
  | cons c cs ih =>
    cases hc : isBlank c with
    | true => by_cases hacc : acc = [] <;> simp [tokensFrom, hc, hacc, ih]
    | false => simp [tokensFrom, hc, ih]

/-- The parser sees the first token and the text of the others together. -/
theorem parseLine_congr {l m t : Line} {r q : List Line} (hl : tokensFrom [] (l.map upper) = t :: r)
    (hm : tokensFrom [] (m.map upper) = t :: q) (h : r.flatten = q.flatten) : parseLine l = parseLine m := by
  simp only [parseLine, hl, hm, h]

/-- The first token of a line that does not begin with white space. -/
theorem tokensFrom_map_upper {head : Line} (hne : head ≠ []) (hhead : ∀ h ∈ head, isBlank h = false) {c : Char}
    (hc : isBlank c = true) (l : Line) :
    tokensFrom [] ((head ++ c :: l).map upper) = head.map upper :: tokensFrom [] (l.map upper) := by
  rw [List.map_append, List.map_cons, upper_of_isBlank hc]
  exact tokensFrom_token (.inr (by simpa using hne)) (by simpa using hhead) hc _

/-- Settles O49: upper case is taken once, white space in front makes no token, and behind the first token the white
space is dropped. -/
theorem caseAndBlanksInsignificant : Obligations.CaseAndBlanksInsignificant := by
  refine ⟨fun line => ?_, fun c line hc => ?_, fun c d e head x y hc hd he hne hhead => ?_⟩
  · have hmap : (line.map upper).map upper = line.map upper := by simp
    simp only [parseLine, hmap]
  · simp only [parseLine, List.map_cons, upper_of_isBlank hc, tokensFrom_nil_blank hc]
  · refine parseLine_congr (tokensFrom_map_upper hne hhead hd _) (tokensFrom_map_upper hne hhead he _) ?_
    simp [flatten_tokensFrom, hc]

end Sys2Proof.Asm
end

section
/-! PROOFS, the memory operand (30_encoding R71, R73). A text is a numeral and a rest that does not go on with a digit in
one way, so each parser answers exactly on its text; a line whose operand text has neither white space nor small letters is
its mnemonic and that text. -/

namespace Sys2Proof.Asm

open Sys2Proof.Rules

/-! ## Numerals -/

theorem mem_digitChars_iff (c : Char) :
    c ∈ ['0', '1', '2', '3', '4', '5', '6', '7', '8', '9'] ↔ 48 ≤ c.toNat ∧ c.toNat ≤ 57 := by
  constructor
  · revert c
    simp
  · rintro ⟨hlo, hhi⟩
    rw [← Char.ofNat_toNat c]
    generalize c.toNat = n at hlo hhi
    interval_cases n <;> decide

/-- A numeral: digits, at least one. -/
theorem digits_iff (l : Line) : Digits l ↔ l ≠ [] ∧ ∀ c ∈ l, 48 ≤ c.toNat ∧ c.toNat ≤ 57 := by
  simp only [Digits, mem_digitChars_iff]

/-- The text does not begin with a digit. -/
def NoDigitHead (t : Line) : Prop := ∀ c ∈ t.head?, digitVal c = none

theorem digitVal_of_digit {c : Char} (h : 48 ≤ c.toNat ∧ c.toNat ≤ 57) : digitVal c = some (c.toNat - 48) := if_pos h

theorem digitVal_eq_none_iff (c : Char) : digitVal c = none ↔ ¬(48 ≤ c.toNat ∧ c.toNat ≤ 57) := by
  simp [digitVal]

/-- Reading digits goes on to the first character that is none. -/
theorem digitsFrom_append {ds u : Line} (hds : ∀ c ∈ ds, 48 ≤ c.toNat ∧ c.toNat ≤ 57) (hu : NoDigitHead u) (acc : Nat) :
    digitsFrom acc (ds ++ u) = (ds.foldl (fun acc c => acc * 10 + (c.toNat - '0'.toNat)) acc, u) := by
  induction ds generalizing acc with
  | nil =>
    cases u with
    | nil => rfl
    | cons c cs => simp [digitsFrom, hu c rfl]
  | cons d ds ih =>
    rw [List.forall_mem_cons] at hds
    simp only [List.cons_append, digitsFrom, digitVal_of_digit hds.1, List.foldl_cons]
    exact ih hds.2 _

/-- A numeral is read to its end. -/
theorem parseNat_append {ds u : Line} (hds : Digits ds) (hu : NoDigitHead u) :
    parseNat (ds ++ u) = some (decimal ds, u) := by
  obtain ⟨hne, hall⟩ := (digits_iff ds).1 hds
  cases ds with
  | nil => exact absurd rfl hne
  | cons d ds =>
    rw [List.forall_mem_cons] at hall
    simp only [List.cons_append, parseNat, digitVal_of_digit hall.1, digitsFrom_append hall.2 hu, decimal,
      List.foldl_cons, Nat.zero_mul, Nat.zero_add]
    rfl

/-- Every text is its digits and a rest. -/
theorem exists_digits_append (t : Line) :
    ∃ ds u : Line, (∀ c ∈ ds, 48 ≤ c.toNat ∧ c.toNat ≤ 57) ∧ NoDigitHead u ∧ t = ds ++ u := by
  induction t with
  | nil => exact ⟨[], [], by simp, by simp [NoDigitHead], rfl⟩
  | cons c cs ih =>
    by_cases hc : 48 ≤ c.toNat ∧ c.toNat ≤ 57
    · obtain ⟨ds, u, hds, hu, rfl⟩ := ih
      exact ⟨c :: ds, u, List.forall_mem_cons.2 ⟨hc, hds⟩, hu, rfl⟩
    · refine ⟨[], c :: cs, by simp, ?_, rfl⟩
      rintro d ⟨⟩
      exact (digitVal_eq_none_iff c).2 hc

/-- What reads as a numeral is one, with a rest. -/
theorem parseNat_eq_some {t : Line} {p : Nat × Line} (h : parseNat t = some p) :
    ∃ ds, Digits ds ∧ t = ds ++ p.2 ∧ p.1 = decimal ds := by
  obtain ⟨ds, u, hds, hu, rfl⟩ := exists_digits_append t
  by_cases hne : ds = []
  · subst hne
    cases u with
    | nil => cases h
    | cons c cs => simp [parseNat, hu c rfl] at h
  · have hdigits : Digits ds := (digits_iff ds).2 ⟨hne, hds⟩
    rw [parseNat_append hdigits hu] at h
    cases h
    exact ⟨ds, hdigits, rfl, rfl⟩

/-! ## The parsers of a memory operand -/

theorem expect_eq_some_iff {c : Char} {t u : Line} : expect c t = some u ↔ t = c :: u := by
  cases t <;> simp [expect]

theorem expectSeparator_eq_some_iff {t u : Line} :
    expectSeparator t = some u ↔ ∃ sep ∈ [',', '+'], t = sep :: u := by
  cases t <;> simp [expectSeparator, or_and_right, exists_or]

theorem atEnd_eq_some_iff {α : Type} {x y : α} {t : Line} : atEnd x t = some y ↔ t = [] ∧ x = y := by
  simp [atEnd]

theorem parseReg_append {ds u : Line} (hds : Digits ds) (hu : NoDigitHead u) :
    parseReg ('R' :: (ds ++ u)) = some ((decimal ds : Int), u) := by
  simp [parseReg, expect, parseNat_append hds hu]

theorem parseReg_eq_some {t : Line} {p : Int × Line} (h : parseReg t = some p) :
    ∃ ds, Digits ds ∧ t = 'R' :: (ds ++ p.2) ∧ p.1 = decimal ds := by
  simp only [parseReg, Option.bind_eq_some_iff, expect_eq_some_iff, Option.map_eq_some_iff] at h
  obtain ⟨u, rfl, q, hq, rfl⟩ := h
  obtain ⟨ds, hds, rfl, hval⟩ := parseNat_eq_some hq
  exact ⟨ds, hds, rfl, congrArg Nat.cast hval⟩

theorem noDigitHead_cons {c : Char} (hc : digitVal c = none) (t : Line) : NoDigitHead (c :: t) := by
  rintro d ⟨⟩
  exact hc

theorem parseRegComma_append {ds : Line} (hds : Digits ds) (u : Line) :
    parseRegComma ('R' :: (ds ++ ',' :: u)) = some ((decimal ds : Int), u) := by
  simp [parseRegComma, parseReg_append hds (noDigitHead_cons (c := ',') rfl u), expect]

theorem parseRegComma_eq_some {t : Line} {p : Int × Line} (h : parseRegComma t = some p) :
    ∃ ds, Digits ds ∧ t = 'R' :: (ds ++ ',' :: p.2) ∧ p.1 = decimal ds := by
  simp only [parseRegComma, Option.bind_eq_some_iff, expect_eq_some_iff, Option.map_eq_some_iff] at h
  obtain ⟨q, hq, u, hu, rfl⟩ := h
  obtain ⟨ds, hds, rfl, hval⟩ := parseReg_eq_some hq
  exact ⟨ds, hds, by rw [hu], hval⟩

theorem memText_eq (d a b : Line) (sep : Char) :
    memText d a b sep = 'R' :: (d ++ ',' :: '[' :: 'R' :: (a ++ sep :: 'R' :: (b ++ [']']))) := by
  simp [memText]

/-- Both spellings of a memory operand are read as their three numbers. -/
theorem parseMem_memText {d a b : Line} {sep : Char} (hd : Digits d) (ha : Digits a) (hb : Digits b)
    (hsep : sep ∈ [',', '+']) :
    parseMem (memText d a b sep) = some [(decimal d : Int), (decimal a : Int), (decimal b : Int)] := by
  have hdigit : digitVal sep = none := by
    revert sep
    simp [digitVal]
  have hsplit : ∀ u, expectSeparator (sep :: u) = some u := fun u => expectSeparator_eq_some_iff.2 ⟨sep, hsep, rfl⟩
  rw [memText_eq, parseMem, parseRegComma_append hd]
  simp [expect, parseReg_append ha (noDigitHead_cons hdigit _), hsplit,
    parseReg_append hb (noDigitHead_cons (c := ']') rfl _), atEnd]

/-- What reads as a memory operand is one of the two spellings. -/
theorem parseMem_eq_some {t : Line} {vs : List Int} (h : parseMem t = some vs) :
    ∃ (d a b : Line) (sep : Char), Digits d ∧ Digits a ∧ Digits b ∧ sep ∈ [',', '+'] ∧ t = memText d a b sep ∧
      vs = [(decimal d : Int), (decimal a : Int), (decimal b : Int)] := by
  simp only [parseMem, Option.bind_eq_some_iff, expect_eq_some_iff, expectSeparator_eq_some_iff,
    atEnd_eq_some_iff] at h
  obtain ⟨p, hp, t1, h1, q, hq, t2, ⟨sep, hsep, h2⟩, r, hr, t3, h3, rfl, rfl⟩ := h
  obtain ⟨d, hd, rfl, hdval⟩ := parseRegComma_eq_some hp
  obtain ⟨a, ha, rfl, haval⟩ := parseReg_eq_some hq
  obtain ⟨b, hb, rfl, hbval⟩ := parseReg_eq_some hr
  refine ⟨d, a, b, sep, hd, ha, hb, hsep, ?_, by rw [hdval, haval, hbval]⟩
  rw [memText_eq, h1, h2, h3]

/-! ## A mnemonic and its operand text -/

/-- A character that stays what it is in upper case and is no white space. -/
def Plain (c : Char) : Prop := upper c = c ∧ isBlank c = false

theorem plain_spelling (k : Mnemonic) : ∀ c ∈ spelling k, Plain c := by
  cases k <;> simp [spelling, Plain, upper, isBlank]

theorem spelling_ne_nil (k : Mnemonic) : spelling k ≠ [] := by cases k <;> decide

theorem mnemonicOfText_spelling (k : Mnemonic) : mnemonicOfText (spelling k) = some k := by cases k <;> decide

/-- Plain text is not changed by `upper`. -/
theorem map_upper_of_plain {t : Line} (ht : ∀ c ∈ t, Plain c) : t.map upper = t :=
  (List.map_congr_left fun c hc => (ht c hc).1).trans (List.map_id t)

/-- A mnemonic, a blank and a plain operand text parse to the mnemonic and its operands. -/
theorem parseLine_spelling {k : Mnemonic} {text : Line} {vs : List Int} (htext : ∀ c ∈ text, Plain c)
    (h : parseOperands k.format text = some vs) :
    parseLine (spelling k ++ ' ' :: text) = .ok { mnemonic := k, operands := vs } := by
  have hupper : (spelling k ++ ' ' :: text).map upper = spelling k ++ ' ' :: text := by
    rw [List.map_append, List.map_cons, map_upper_of_plain (plain_spelling k), map_upper_of_plain htext]
    rfl
  have htokens : tokensFrom [] (spelling k ++ ' ' :: text) = spelling k :: tokensFrom [] text :=
    tokensFrom_token (.inr (spelling_ne_nil k)) (fun c hc => (plain_spelling k c hc).2) rfl text
  have hrest : (tokensFrom [] text).flatten = text := by
    rw [flatten_tokensFrom]
    exact List.filter_eq_self.2 fun c hc => by rw [(htext c hc).2]; rfl
  simp only [parseLine, hupper, htokens, mnemonicOfText_spelling, hrest, h]

theorem plain_of_digits {l : Line} (h : Digits l) : ∀ c ∈ l, Plain c := by
  intro c hc
  have hdigit := ((digits_iff l).1 h).2 c hc
  refine ⟨if_neg (by omega), ?_⟩
  rw [← Bool.not_eq_true, isBlank_iff]
  omega

theorem plain_memText {d a b : Line} {sep : Char} (hd : Digits d) (ha : Digits a) (hb : Digits b)
    (hsep : sep ∈ [',', '+']) : ∀ c ∈ memText d a b sep, Plain c := by
  have hmarks : ∀ c ∈ ['R', ',', '[', '+', ']'], Plain c := by
    simp [Plain, upper, isBlank]
  have hsep' : Plain sep := hmarks sep (by revert sep; simp)
  simp only [List.forall_mem_cons] at hmarks
  obtain ⟨hR, hcomma, hopen, -, hclose, hnil⟩ := hmarks
  simp only [memText_eq, List.forall_mem_cons, List.forall_mem_append]
  exact ⟨hR, plain_of_digits hd, hcomma, hopen, hR, plain_of_digits ha, hsep', hR, plain_of_digits hb, hclose, hnil⟩

/-- Settles O48: the grammar is that of the three numerals, and both spellings parse to the same operands. -/
theorem memoryOperandSpellings : Obligations.MemoryOperandSpellings := by
  refine ⟨fun t vs => ⟨parseMem_eq_some, ?_⟩, fun m k d a b hk hd ha hb => ?_⟩
  · rintro ⟨d, a, b, sep, hd, ha, hb, hsep, rfl, rfl⟩
    exact parseMem_memText hd ha hb hsep
  · have hmem : k ∈ [Mnemonic.add, .sub, .and, .ldr, .str] := by rcases hk with rfl | rfl <;> decide
    have hformat : k.format = .mem := by rcases hk with rfl | rfl <;> rfl
    refine ⟨_, encodeOperands_r3_mem hmem m _ _ _, fun sep hsep => ?_⟩
    have hparse : parseLine (spelling k ++ ' ' :: memText d a b sep) =
        .ok { mnemonic := k, operands := [(decimal d : Int), (decimal a : Int), (decimal b : Int)] } :=
      parseLine_spelling (plain_memText hd ha hb hsep) (by rw [hformat]; exact parseMem_memText hd ha hb hsep)
    simp only [assembleLine, hparse, encodeOperands_r3_mem hmem]

end Sys2Proof.Asm
end
